-- ==== Sys2Proof/Word.lean ====
section
/-!
DEFINITION. The words of CORE's command interface: bytes, 64-bit ports and the 2-bit width code.
`w`-bit values are `BitVec w` for the configured width `w`; they are computed in
`Sys2Proof/Machine/Bits.lean`.
-/

namespace Sys2Proof

/-- One byte: a command word, a message byte or a table index (`00_scope.md` R8, R10). -/
abbrev Byte := BitVec 8

/-- A number port, and the container in which a `w`-bit register or table entry is held
(`00_scope.md` R8, `XMAX` = 64; `20_memory.md` R53). -/
abbrev Port := BitVec 64

/-- The 2-bit width code `WC`; each of its four values is legal (`10_state.md` R21). -/
abbrev WidthCode := BitVec 2

end Sys2Proof
end

