-- ==== Sys2Proof/Syntax.lean ====
section
/-!
DEFINITION. The commands of CORE as data: one constructor of `Instr` per row of
`spec/opcode_table.json` (`30_encoding.md` R64), each carrying exactly the operands its row lists
(R63), and what stands on the command interface before it is decoded: the command word and the
operand slots. Meanings are in `Sys2Proof/Machine`.
-/

namespace Sys2Proof

/-- The external table operand `XT` (`20_memory.md` R46): its width code and its answers for every
index of the three spaces `XDENSE`, `XROW` and `XCOL`. A function on a fixed index range is held as
the vector of its values, so an operand is plain data and cannot change while a command reads it. The
vectors' lengths are the index ranges of the spaces `XDENSE`, `XROW` and `XCOL` (R40, R56). -/
structure ExtTable where
  wc : WidthCode
  dense : Vector Port 256
  row : Vector Port 16
  col : Vector Port 16
  deriving DecidableEq, Repr

/-- What an unused `XT` slot carries: width code 0 and zero entries. -/
def ExtTable.zero : ExtTable where
  wc := 0
  dense := Vector.replicate 256 0
  row := Vector.replicate 16 0
  col := Vector.replicate 16 0

/-- The commands of `30_encoding.md` R64, in the table's order. -/
inductive Instr where
  /-- `REV.B` (0x00): operand `A`. -/
  | revB (a : Port)
  /-- `REV.H` (0x01): operand `A`. -/
  | revH (a : Port)
  /-- `REV.W` (0x02): operand `A`. -/
  | revW (a : Port)
  /-- `REV.D` (0x03): operand `A`. -/
  | revD (a : Port)
  /-- `CFG.SET` (0x10): `A` = poly, `B` = init, `C` = xorout, `F` = flags word (R66). -/
  | cfgSet (poly init xorout : Port) (flags : BitVec 6)
  /-- `GEN.T256` (0x20). -/
  | genT256
  /-- `GEN.T16` (0x21). -/
  | genT16
  /-- `ACC.INIT` (0x30). -/
  | accInit
  /-- `ACC.LOAD` (0x31): `A` = the interim value. -/
  | accLoad (a : Port)
  /-- `UPD.BIT` (0x40): byte range `S`. -/
  | updBit (bytes : List Byte)
  /-- `UPD.T256` (0x41): byte range `S`. -/
  | updT256 (bytes : List Byte)
  /-- `UPD.T16` (0x42): byte range `S`. -/
  | updT16 (bytes : List Byte)
  /-- `UPD.X256` (0x43): byte range `S`, external table `XT`. -/
  | updX256 (bytes : List Byte) (xt : ExtTable)
  /-- `UPD.X16` (0x44): byte range `S`, external table `XT`. -/
  | updX16 (bytes : List Byte) (xt : ExtTable)
  /-- `RD.INTERIM` (0x50). -/
  | rdInterim
  /-- `RD.RESIDUE` (0x51). -/
  | rdResidue
  /-- `RD.FINAL` (0x52). -/
  | rdFinal
  /-- `RD.T256` (0x53): operand `IDX`. -/
  | rdT256 (idx : Byte)
  /-- `RD.ROW` (0x54): operand `IDX`, in range below 16. -/
  | rdRow (idx : Byte)
  /-- `RD.COL` (0x55): operand `IDX`, in range below 16. -/
  | rdCol (idx : Byte)
  /-- `CALC.BIT` (0x60): byte range `S`. -/
  | calcBit (bytes : List Byte)
  /-- `CALC.T256` (0x61): byte range `S`. -/
  | calcT256 (bytes : List Byte)
  /-- `CALC.T16` (0x62): byte range `S`. -/
  | calcT16 (bytes : List Byte)
  /-- `CALC.X256` (0x63): byte range `S`, external table `XT`. -/
  | calcX256 (bytes : List Byte) (xt : ExtTable)
  /-- `CALC.X16` (0x64): byte range `S`, external table `XT`. -/
  | calcX16 (bytes : List Byte) (xt : ExtTable)
  /-- `RESC` (0x70). -/
  | resc
  deriving DecidableEq, Repr

/-- The operand slots of the command interface (`30_encoding.md` R63). Every command is issued with
all of them; a command reads only those its row lists. -/
structure Slots where
  a : Port
  b : Port
  c : Port
  f : BitVec 6
  idx : Byte
  s : List Byte
  xt : ExtTable
  deriving DecidableEq, Repr

/-- Slots that carry nothing: zeros, the empty byte range, the zero external table. -/
def Slots.zero : Slots where
  a := 0
  b := 0
  c := 0
  f := 0
  idx := 0
  s := []
  xt := ExtTable.zero

/-- One command as the host issues it: the command word and the operand slots (`30_encoding.md`
R60). -/
structure Request where
  cmd : Byte
  slots : Slots
  deriving DecidableEq, Repr

end Sys2Proof
end

