-- ==== Sys2Proof/Config.lean ====
section
/-!
DEFINITION. What an implementation of CORE fixes and the spec leaves open (`92_eei_decisions.md`,
open parameters). `LATENCY` and `N_INSTANCES` are read by no rule and stand in the assumption log
only (entries 10 and 11).
-/

namespace Sys2Proof

/-- `LEN_MAX`, the greatest length of one byte range: a natural number, or unbounded (`none`). Open
in the spec (`20_memory.md` R49, D8), so it has no body here: a statement about it holds for every
value. The meanings run for every finite range; only well-formedness reads it (log entry 9). -/
opaque Config.lenMax : Option Nat

end Sys2Proof
end

