-- ==== Sys2Proof/WellFormed.lean ====
section
/-!
DEFINITION. Which commands an implementation admits. The types of the operands already make every
other malformed command unrepresentable: ports, flags and indices have their widths, an external
table answers every index. An operand too wide for its use is NOT ill-formed: CORE reports it with
the status OperandRange (`60_exceptions.md` R178). What is left is the length of the byte range,
which an implementation may bound by `LEN_MAX` (`92_eei_decisions.md` D8).
-/

namespace Sys2Proof

/-- The byte range `S` of a command, empty for a command that takes none. -/
def Instr.byteRange : Instr → List Byte
  | .updBit bytes => bytes
  | .updT256 bytes => bytes
  | .updT16 bytes => bytes
  | .updX256 bytes _ => bytes
  | .updX16 bytes _ => bytes
  | .calcBit bytes => bytes
  | .calcT256 bytes => bytes
  | .calcT16 bytes => bytes
  | .calcX256 bytes _ => bytes
  | .calcX16 bytes _ => bytes
  | .revB _ => []
  | .revH _ => []
  | .revW _ => []
  | .revD _ => []
  | .cfgSet _ _ _ _ => []
  | .genT256 => []
  | .genT16 => []
  | .accInit => []
  | .accLoad _ => []
  | .rdInterim => []
  | .rdResidue => []
  | .rdFinal => []
  | .rdT256 _ => []
  | .rdRow _ => []
  | .rdCol _ => []
  | .resc => []

/-- The byte range is no longer than the bound, when there is one. -/
def Instr.fitsLength (bound : Option Nat) (i : Instr) : Bool :=
  match bound with
  | none => true
  | some n => decide (i.byteRange.length ≤ n)

/-- A command this implementation admits: its byte range is within `LEN_MAX`. -/
def Instr.wellFormed (i : Instr) : Bool :=
  i.fitsLength Config.lenMax

end Sys2Proof
end

