-- ==== Sys2Proof/Decode.lean ====
section
/-!
DEFINITION. The decoder and the encoder of the command word, written apart from each other: the
decoder goes by the code column of `30_encoding.md` R64, the encoder by the fields of R61. The
decoder is total; it rejects each of the 230 reserved words by a name that says why (R68).
-/

namespace Sys2Proof

/-- Why a command word is reserved (`30_encoding.md` R68). -/
inductive Reserved where
  /-- `cmd[7]` is 1. -/
  | bitZ
  /-- `cmd[3]` is 1. -/
  | bitY
  /-- `cmd[7]` and `cmd[3]` are 0 and the group has no command under this selector. -/
  | selector (grp sel : BitVec 3)
  deriving DecidableEq, Repr

/-- `z`, bit 7 of the command word (R61). -/
def fieldZ (cmd : Byte) : Bool := cmd.getLsbD 7

/-- `grp`, bits 6 to 4 of the command word (R61). -/
def fieldGrp (cmd : Byte) : BitVec 3 := cmd.extractLsb' 4 3

/-- `y`, bit 3 of the command word (R61). -/
def fieldY (cmd : Byte) : Bool := cmd.getLsbD 3

/-- `sel`, bits 2 to 0 of the command word (R61). -/
def fieldSel (cmd : Byte) : BitVec 3 := cmd.extractLsb' 0 3

/-- The name of a word's rejection, for a word that is none of the codes of R64. -/
def reservedName (cmd : Byte) : Reserved :=
  if fieldZ cmd then .bitZ
  else if fieldY cmd then .bitY
  else .selector (fieldGrp cmd) (fieldSel cmd)

/-- The decoder: the code column of R64. It reads the slots only to hand a command its operands
(R63, R67). -/
def decode (r : Request) : Except Reserved Instr :=
  match r.cmd.toNat with
  | 0x00 => .ok (.revB r.slots.a)
  | 0x01 => .ok (.revH r.slots.a)
  | 0x02 => .ok (.revW r.slots.a)
  | 0x03 => .ok (.revD r.slots.a)
  | 0x10 => .ok (.cfgSet r.slots.a r.slots.b r.slots.c r.slots.f)
  | 0x20 => .ok .genT256
  | 0x21 => .ok .genT16
  | 0x30 => .ok .accInit
  | 0x31 => .ok (.accLoad r.slots.a)
  | 0x40 => .ok (.updBit r.slots.s)
  | 0x41 => .ok (.updT256 r.slots.s)
  | 0x42 => .ok (.updT16 r.slots.s)
  | 0x43 => .ok (.updX256 r.slots.s r.slots.xt)
  | 0x44 => .ok (.updX16 r.slots.s r.slots.xt)
  | 0x50 => .ok .rdInterim
  | 0x51 => .ok .rdResidue
  | 0x52 => .ok .rdFinal
  | 0x53 => .ok (.rdT256 r.slots.idx)
  | 0x54 => .ok (.rdRow r.slots.idx)
  | 0x55 => .ok (.rdCol r.slots.idx)
  | 0x60 => .ok (.calcBit r.slots.s)
  | 0x61 => .ok (.calcT256 r.slots.s)
  | 0x62 => .ok (.calcT16 r.slots.s)
  | 0x63 => .ok (.calcX256 r.slots.s r.slots.xt)
  | 0x64 => .ok (.calcX16 r.slots.s r.slots.xt)
  | 0x70 => .ok .resc
  | _ => .error (reservedName r.cmd)

/-- A command word put together from its fields: `z` = 0, `grp`, `y` = 0, `sel` (R61). -/
def commandWord (grp sel : BitVec 3) : Byte :=
  0#1 ++ grp ++ 0#1 ++ sel

/-- The encoder: group and selector of each command (R61, R62) and its operands in the slots its row
of R64 lists. A slot the row does not list is left zero (log entry 13). -/
def encode : Instr → Request
  | .revB a => ⟨commandWord 0 0, { Slots.zero with a }⟩
  | .revH a => ⟨commandWord 0 1, { Slots.zero with a }⟩
  | .revW a => ⟨commandWord 0 2, { Slots.zero with a }⟩
  | .revD a => ⟨commandWord 0 3, { Slots.zero with a }⟩
  | .cfgSet poly init xorout flags =>
      ⟨commandWord 1 0, { Slots.zero with a := poly, b := init, c := xorout, f := flags }⟩
  | .genT256 => ⟨commandWord 2 0, Slots.zero⟩
  | .genT16 => ⟨commandWord 2 1, Slots.zero⟩
  | .accInit => ⟨commandWord 3 0, Slots.zero⟩
  | .accLoad a => ⟨commandWord 3 1, { Slots.zero with a }⟩
  | .updBit s => ⟨commandWord 4 0, { Slots.zero with s }⟩
  | .updT256 s => ⟨commandWord 4 1, { Slots.zero with s }⟩
  | .updT16 s => ⟨commandWord 4 2, { Slots.zero with s }⟩
  | .updX256 s xt => ⟨commandWord 4 3, { Slots.zero with s, xt }⟩
  | .updX16 s xt => ⟨commandWord 4 4, { Slots.zero with s, xt }⟩
  | .rdInterim => ⟨commandWord 5 0, Slots.zero⟩
  | .rdResidue => ⟨commandWord 5 1, Slots.zero⟩
  | .rdFinal => ⟨commandWord 5 2, Slots.zero⟩
  | .rdT256 idx => ⟨commandWord 5 3, { Slots.zero with idx }⟩
  | .rdRow idx => ⟨commandWord 5 4, { Slots.zero with idx }⟩
  | .rdCol idx => ⟨commandWord 5 5, { Slots.zero with idx }⟩
  | .calcBit s => ⟨commandWord 6 0, { Slots.zero with s }⟩
  | .calcT256 s => ⟨commandWord 6 1, { Slots.zero with s }⟩
  | .calcT16 s => ⟨commandWord 6 2, { Slots.zero with s }⟩
  | .calcX256 s xt => ⟨commandWord 6 3, { Slots.zero with s, xt }⟩
  | .calcX16 s xt => ⟨commandWord 6 4, { Slots.zero with s, xt }⟩
  | .resc => ⟨commandWord 7 0, Slots.zero⟩

/-- The request for an instruction given by the opcode table's bits alone: the command word is the
low `nbits` bits of `w`, and every operand slot, which the table gives no bits, carries zeros (log
entry 12). -/
def tableRequest (nbits w : Nat) : Request :=
  ⟨BitVec.ofNat 8 (w % 2 ^ nbits), Slots.zero⟩

/-- The instruction the decoder reads from the opcode table's bits. -/
def decodeTableWord (nbits w : Nat) : Option Instr :=
  match decode (tableRequest nbits w) with
  | .ok i => some i
  | .error _ => none

end Sys2Proof
end

