-- ==== Sys2Proof/Machine/Bits.lean ====
section
/-!
DEFINITION. The arithmetic of CORE's four units at any width `w`: bit reversal (`41_bit_reflection.md`),
the bit round and the content of a table (`42_table_generator.md`), the two byte steps
(`43_byte_update.md`). Every value is unsigned; a left shift drops the bits shifted past bit `w - 1`, a
right shift fills with zeros (R11, R133), which is what `BitVec` shifts do.
-/

namespace Sys2Proof.Machine

/-- The width a code selects: `w = 8 << WC` (`10_state.md` R21). -/
def width (wc : WidthCode) : Nat := 8 <<< wc.toNat

/-- `zext_64`: a `w`-bit value on a 64-bit port or in a 64-bit container (`20_memory.md` R53). -/
def toPort {w : Nat} (v : BitVec w) : Port := v.setWidth 64

/-- `trunc_w`: the `w`-bit value in bits `[w-1:0]` of a port or container (`20_memory.md` R53). -/
def ofPort (w : Nat) (p : Port) : BitVec w := p.setWidth w

/-- `rev_N`: bit `i` of the result is bit `N-1-i` of `v` (`41_bit_reflection.md` R80). -/
def rev {w : Nat} (v : BitVec w) : BitVec w := v.reverse

/-- `reflect_if(c, v)` (`41_bit_reflection.md` R86). -/
def reflectIf {w : Nat} (c : Bool) (v : BitVec w) : BitVec w := if c then rev v else v

/-- `round(w, r, reg, P)`: under the unreflected convention shift left and XOR `P` when the bit
shifted out was 1 (`42_table_generator.md` R90); under the reflected one shift right, with the
low-order bit (R91). -/
def bitRound {w : Nat} (r : Bool) (reg poly : BitVec w) : BitVec w :=
  if r then
    if reg.getLsbD 0 then (reg >>> 1) ^^^ poly else reg >>> 1
  else
    if reg.getLsbD (w - 1) then (reg <<< 1) ^^^ poly else reg <<< 1

/-- `rounds(w, r, reg, P, n)`: `n` rounds (`42_table_generator.md` R92). -/
def rounds {w : Nat} (r : Bool) (reg poly : BitVec w) : Nat → BitVec w
  | 0 => reg
  | n + 1 => bitRound r (rounds r reg poly n) poly

/-- `load_byte(w, r, b)`: the byte in bits `[w-1:w-8]` under the unreflected convention, in bits
`[7:0]` under the reflected one (`42_table_generator.md` R93). -/
def loadByte (w : Nat) (r : Bool) (b : Byte) : BitVec w :=
  if r then b.setWidth w else b.setWidth w <<< (w - 8)

/-- `table_entry(w, r, P, i)`: the content of entry `i` of the table of the key `(w, P, r)`
(`42_table_generator.md` R94). -/
def tableEntry {w : Nat} (r : Bool) (poly : BitVec w) (i : Byte) : BitVec w :=
  rounds r (loadByte w r i) poly 8

/-- `step_bit(reg, b)`, the bit-serial byte step (`43_byte_update.md` R114). -/
def stepBit {w : Nat} (r : Bool) (poly reg : BitVec w) (b : Byte) : BitVec w :=
  rounds r (reg ^^^ loadByte w r b) poly 8

/-- The table index of a byte step: the top byte of the register (unreflected) or its low byte
(reflected), XOR the byte (`43_byte_update.md` R115). -/
def tableIndex {w : Nat} (r : Bool) (reg : BitVec w) (b : Byte) : Byte :=
  if r then reg.setWidth 8 ^^^ b else (reg >>> (w - 8)).setWidth 8 ^^^ b

/-- `step_tab(look, reg, b)`, the table byte step (`43_byte_update.md` R115, R116). -/
def stepTab {w : Nat} (r : Bool) (look : Byte → BitVec w) (reg : BitVec w) (b : Byte) : BitVec w :=
  look (tableIndex r reg b) ^^^ (if r then reg >>> 8 else reg <<< 8)

/-- `compact_entry(i)`: the low nibble of the index addresses the row, the high nibble the column,
and the two answers are XORed (`20_memory.md` R43). -/
def compactEntry {w : Nat} (row col : BitVec 4 → BitVec w) (i : Byte) : BitVec w :=
  row (i.extractLsb' 0 4) ^^^ col (i.extractLsb' 4 4)

/-- `update(step, S)` on the register alone: the bytes from first to last, each through the input
adapter, each mapping the register to the next one (`43_byte_update.md` R112). -/
def updateReg {w : Nat} (step : BitVec w → Byte → BitVec w) (adapt : Byte → Byte) (reg : BitVec w)
    (bytes : List Byte) : BitVec w :=
  bytes.foldl (fun reg b => step reg (adapt b)) reg

/-- The residue constant of a configuration: `xorout` reflected when `ref_reg != ref_out`, exactly `w`
rounds, reflected when `ref_reg != ref_in` (`44_residue.md` R135; the two conditions differ as
`90_conflicts.md` C4 resolves). -/
def residueConst {w : Nat} (refIn refOut refReg : Bool) (poly xorout : BitVec w) : BitVec w :=
  reflectIf (refReg != refIn) (rounds refReg (reflectIf (refReg != refOut) xorout) poly w)

end Sys2Proof.Machine
end

