-- ==== Sys2Proof/Machine/Operands.lean ====
section
/-!
DEFINITION. The operand forms of `30_encoding.md` R63: number operands and their range (R65), the
fields of the flags word of CFG.SET (R66), table indices, and what an external table answers
(`20_memory.md` R46, R47).
-/

namespace Sys2Proof.Machine

/-- A number operand that stands for an `n`-bit value has bits `[63:n]` zero (R65). At `n` = 64 the
range is empty and every operand fits. -/
def fits (n : Nat) (a : Port) : Bool := a >>> n == 0

/-- `IDX` of RD.ROW and RD.COL is below 16 (R65). -/
def nibbleIndex (idx : Byte) : Bool := decide (idx.toNat < 16)

/-- `F[1:0]`, the width code (R66). -/
def flagsWidth (f : BitVec 6) : WidthCode := f.extractLsb' 0 2

/-- `F[2]`, `ref_in` (R66). -/
def flagsRefIn (f : BitVec 6) : Bool := f.getLsbD 2

/-- `F[3]`, `ref_out` (R66). -/
def flagsRefOut (f : BitVec 6) : Bool := f.getLsbD 3

/-- `ref_reg` as the flags word gives it: `F[5]` when `F[4]` is 1, else its default `F[2]`
(R66, `10_state.md` R24). -/
def flagsRefReg (f : BitVec 6) : Bool := if f.getLsbD 4 then f.getLsbD 5 else f.getLsbD 2

/-- `MemRead(XDENSE, i)`, truncated to `w` bits (`20_memory.md` R46, R47). -/
def xtDense (w : Nat) (xt : ExtTable) (i : Byte) : BitVec w :=
  ofPort w (xt.dense[i.toNat]'i.isLt)

/-- `MemRead(XROW, i)`, truncated to `w` bits (`20_memory.md` R46, R47). -/
def xtRow (w : Nat) (xt : ExtTable) (i : BitVec 4) : BitVec w :=
  ofPort w (xt.row[i.toNat]'i.isLt)

/-- `MemRead(XCOL, i)`, truncated to `w` bits (`20_memory.md` R46, R47). -/
def xtCol (w : Nat) (xt : ExtTable) (i : BitVec 4) : BitVec w :=
  ofPort w (xt.col[i.toNat]'i.isLt)

end Sys2Proof.Machine
end

