-- ==== Sys2Proof/Machine/State.lean ====
section
/-!
DEFINITION. The state of one CORE instance (`10_state.md`), plain data. A `w`-bit register or table
entry is held zero-extended in a 64-bit container (log entry 6). `pending` and `resp` are the model's
own fields for the two sides of the command interface (log entries 1 and 2).
-/

namespace Sys2Proof.Machine

/-- The configuration registers (`10_state.md` R20 to R24): the seven values of the configuration and
the two derived registers. `poly`, `init`, `xorout`, `actualPoly` and `actualInit` are `w`-bit
values. -/
structure CfgRegs where
  /-- `WC`, the width code (R21). -/
  wc : WidthCode
  /-- `POLY` (R22). -/
  poly : Port
  /-- `INIT` (R22). -/
  init : Port
  /-- `XOROUT` (R22). -/
  xorout : Port
  /-- `REF_IN` (R24). -/
  refIn : Bool
  /-- `REF_OUT` (R24). -/
  refOut : Bool
  /-- `REF_REG` (R24). -/
  refReg : Bool
  /-- `ACTUAL_POLY` (R23). -/
  actualPoly : Port
  /-- `ACTUAL_INIT` (R23). -/
  actualInit : Port
  deriving DecidableEq, Repr

/-- The key of a table: the triple `(WC, ACTUAL_POLY, REF_REG)` (`10_state.md` R30,
`90_conflicts.md` C1). -/
structure TableKey where
  wc : WidthCode
  poly : Port
  refReg : Bool
  deriving DecidableEq, Repr

/-- The dense table store: `T256_VALID`, `T256_TAG`, `T256[0..255]` (`10_state.md` R30). The vector's
length is the index range of the space `DENSE` (`20_memory.md` R40), and an index is an entry number:
there is no other address map, no translation and no protection (R56). -/
structure DenseStore where
  valid : Bool
  tag : TableKey
  entries : Vector Port 256
  deriving DecidableEq, Repr

/-- The compact table store: `T16_VALID`, `T16_TAG`, `ROW[0..15]`, `COL[0..15]` (`10_state.md` R31).
The vectors' lengths are the index ranges of the spaces `ROW` and `COL` (`20_memory.md` R40, R56). -/
structure CompactStore where
  valid : Bool
  tag : TableKey
  row : Vector Port 16
  col : Vector Port 16
  deriving DecidableEq, Repr

/-- The response of a command: the 3-bit status and the 64-bit result (`30_encoding.md` R63). -/
structure Response where
  status : BitVec 3
  result : Port
  deriving DecidableEq, Repr

/-- What the host does between two commands: issue a command, or apply the reset event
(`60_exceptions.md` R189, `70_reset_and_hazards.md` R190). -/
inductive HostEvent where
  | command (r : Request)
  | reset
  deriving DecidableEq, Repr

/-- The contract violations of `60_exceptions.md` R173. -/
inductive Violation where
  /-- A reserved command word (R174). -/
  | illegalCommand
  /-- A configuration register is needed and `CFG_VALID` = 0 (R175). -/
  | notConfigured
  /-- An operand does not fit its type (R178). -/
  | operandRange
  /-- The accumulator is needed and `ACC_VALID` = 0 (R176). -/
  | accNotLoaded
  /-- The external table was built for another width (R177). -/
  | extTableWidth
  deriving DecidableEq, Repr

/-- One CORE instance. -/
structure State where
  /-- The configuration registers (R20 to R24). -/
  cfg : CfgRegs
  /-- `CFG_VALID` (R25). -/
  cfgValid : Bool
  /-- `CRC`, the accumulator register, a `w`-bit value (R26). -/
  crc : Port
  /-- `ACC_VALID` (R28). -/
  accValid : Bool
  /-- The dense table store (R30). -/
  dense : DenseStore
  /-- The compact table store (R31). -/
  compact : CompactStore
  /-- `FAULT`, the sticky flag (R33). -/
  fault : Bool
  /-- What the host does next, first event first (the model's field, log entry 1). -/
  pending : List HostEvent
  /-- The response of the last command executed since reset (the model's field, log entry 2). -/
  resp : Option Response
  deriving DecidableEq, Repr

/-- What stops the machine: nothing. No value, no command and no state stops CORE
(`60_exceptions.md` R170, R180, `70_reset_and_hazards.md` R200); a contract violation is a response
after which the next command executes normally, so it is a next state (R172, R180). Nothing raises a
fault, and that is safe and exact: the type has no constructor. -/
inductive Fault where
  deriving DecidableEq, Repr

/-- Why the model gives a command no meaning. -/
inductive Refusal where
  /-- Raised only by an arm of `exec` whose command has no meaning yet; no arm does. Safe: a run
  stops where the hardware would go on. -/
  | notModelled (mnemonic : String)
  deriving DecidableEq, Repr

/-- The configuration registers after reset. The spec gives them no value (`10_state.md` R37); zero
is the model's DESIGN CHOICE (log entry 4). -/
def CfgRegs.reset : CfgRegs where
  wc := 0
  poly := 0
  init := 0
  xorout := 0
  refIn := false
  refOut := false
  refReg := false
  actualPoly := 0
  actualInit := 0

/-- A table tag after reset: zero, DESIGN CHOICE (log entry 4). -/
def TableKey.reset : TableKey where
  wc := 0
  poly := 0
  refReg := false

/-- The dense store after reset: `T256_VALID` = 0 (R37); tag and entries zero, DESIGN CHOICE (log
entry 4). -/
def DenseStore.reset : DenseStore where
  valid := false
  tag := TableKey.reset
  entries := Vector.replicate 256 0

/-- The compact store after reset: `T16_VALID` = 0 (R37); tag and entries zero, DESIGN CHOICE (log
entry 4). -/
def CompactStore.reset : CompactStore where
  valid := false
  tag := TableKey.reset
  row := Vector.replicate 16 0
  col := Vector.replicate 16 0

/-- The machine right after reset (`10_state.md` R37, `70_reset_and_hazards.md` R190): the four valid
bits and `FAULT` are 0. The guarded elements have no value in the spec and are zero here, DESIGN
CHOICE (log entry 4); no command has been issued and none answered (log entries 1 and 2). -/
def State.reset : State where
  cfg := CfgRegs.reset
  cfgValid := false
  crc := 0
  accValid := false
  dense := DenseStore.reset
  compact := CompactStore.reset
  fault := false
  pending := []
  resp := none

end Sys2Proof.Machine
end

