-- ==== Sys2Proof/Machine/Flags.lean ====
section
/-!
DEFINITION. The flags of CORE: the four valid bits and what they guard, whether a table store is
current (`10_state.md` R25, R28, R30, R31), and the status code of each violation
(`60_exceptions.md` R173). CORE has no condition codes (R33).
-/

namespace Sys2Proof.Machine

/-- The configured width `w` (`10_state.md` R21). -/
abbrev State.w (s : State) : Nat := width s.cfg.wc

/-- `CRC` as a `w`-bit value. -/
def State.crcVal (s : State) : BitVec s.w := ofPort s.w s.crc

/-- `XOROUT` as a `w`-bit value. -/
def State.xoroutVal (s : State) : BitVec s.w := ofPort s.w s.cfg.xorout

/-- `ACTUAL_POLY` as a `w`-bit value. -/
def State.polyVal (s : State) : BitVec s.w := ofPort s.w s.cfg.actualPoly

/-- `ACTUAL_INIT` as a `w`-bit value. -/
def State.initVal (s : State) : BitVec s.w := ofPort s.w s.cfg.actualInit

/-- The key of the present configuration, `(WC, ACTUAL_POLY, REF_REG)` (R30). -/
def State.key (s : State) : TableKey where
  wc := s.cfg.wc
  poly := toPort s.polyVal
  refReg := s.cfg.refReg

/-- The dense store is current: valid, and tagged with the key of the present configuration (R30). -/
def State.denseCurrent (s : State) : Bool := s.dense.valid && decide (s.dense.tag = s.key)

/-- The compact store is current (R31). -/
def State.compactCurrent (s : State) : Bool := s.compact.valid && decide (s.compact.tag = s.key)

/-- The status code of a violation (`60_exceptions.md` R173); 0 is `OK`, 6 and 7 are never
returned. -/
def statusCode : Violation → BitVec 3
  | .illegalCommand => 1
  | .notConfigured => 2
  | .operandRange => 3
  | .accNotLoaded => 4
  | .extTableWidth => 5

end Sys2Proof.Machine
end

