-- ==== Sys2Proof/Machine/Ops.lean ====
section
/-!
DEFINITION. The operations the meanings share: answering a command, raising a contract violation
(CORE's only exception, `60_exceptions.md` R172) and the checks that raise one, in the order of R179;
writing the accumulator; reading and generating the table stores (`42_table_generator.md` R96 to R99);
the reset event (`70_reset_and_hazards.md` R190). There is no return from a violation to model: nothing
is saved and nothing restored (R182).
-/

namespace Sys2Proof.Machine

/-- What a command answers. -/
abbrev Result := Host.Outcome State Fault Refusal

/-- A successful response: status 0 and the result (`30_encoding.md` R63). -/
def State.respond (s : State) (result : Port) : State :=
  { s with resp := some ⟨0, result⟩ }

/-- The state after a contract violation: `FAULT` set, the violation's status, result 0, and nothing
else written (R172). -/
def State.violate (s : State) (v : Violation) : State :=
  { s with fault := true, resp := some ⟨statusCode v, 0⟩ }

/-- `raise ContractViolation(v)`: the command ends at once and the machine goes on (R172, R180). -/
def State.raise (s : State) (v : Violation) : Result := .next (s.violate v)

/-- The check of `CFG_VALID` (R175). -/
def State.requireCfg (s : State) (k : Result) : Result :=
  if s.cfgValid then k else s.raise .notConfigured

/-- The check that a number operand fits `n` bits (R178). -/
def State.requireFits (s : State) (n : Nat) (a : Port) (k : Result) : Result :=
  if fits n a then k else s.raise .operandRange

/-- The check that an index of ROW or COL is below 16 (R178). -/
def State.requireNibble (s : State) (idx : Byte) (k : Result) : Result :=
  if nibbleIndex idx then k else s.raise .operandRange

/-- The check of `ACC_VALID` (R176). -/
def State.requireAcc (s : State) (k : Result) : Result :=
  if s.accValid then k else s.raise .accNotLoaded

/-- The check of the external table's width code (R177). -/
def State.requireXt (s : State) (xt : ExtTable) (k : Result) : Result :=
  if xt.wc = s.cfg.wc then k else s.raise .extTableWidth

/-- `CRC <- v` with `ACC_VALID` as it is: what an UPD command writes (`43_byte_update.md` R112). -/
def State.putCrc (s : State) (v : BitVec s.w) : State :=
  { s with crc := toPort v }

/-- `CRC <- v`, `ACC_VALID <- 1`: loading the accumulator (`45_accumulator_commands.md` R147,
R148). -/
def State.loadAcc (s : State) (v : BitVec s.w) : State :=
  { s with crc := toPort v, accValid := true }

/-- `adapt_in`: the input adapter, always at 8 bits (`43_byte_update.md` R110). -/
def State.adaptIn (s : State) (b : Byte) : Byte := reflectIf (s.cfg.refIn != s.cfg.refReg) b

/-- `adapt_out`: the output adapter, on a copy of the register (`43_byte_update.md` R111). -/
def State.adaptOut (s : State) (v : BitVec s.w) : BitVec s.w :=
  reflectIf (s.cfg.refReg != s.cfg.refOut) v

/-- The residue of the present register (`45_accumulator_commands.md` R151). -/
def State.residueVal (s : State) : BitVec s.w := s.adaptOut s.crcVal

/-- The checksum of the present register (`45_accumulator_commands.md` R152). -/
def State.finalVal (s : State) : BitVec s.w := s.residueVal ^^^ s.xoroutVal

/-- `MemRead(DENSE, i)` (`20_memory.md` R41). -/
def State.readDense (s : State) (i : Byte) : BitVec s.w :=
  ofPort s.w (s.dense.entries[i.toNat]'i.isLt)

/-- `MemRead(ROW, i)` (`20_memory.md` R42). -/
def State.readRow (s : State) (i : BitVec 4) : BitVec s.w :=
  ofPort s.w (s.compact.row[i.toNat]'i.isLt)

/-- `MemRead(COL, i)` (`20_memory.md` R42). -/
def State.readCol (s : State) (i : BitVec 4) : BitVec s.w :=
  ofPort s.w (s.compact.col[i.toNat]'i.isLt)

/-- The dense store holding the table of the present key (`42_table_generator.md` R96). -/
def State.denseTable (s : State) : DenseStore where
  valid := true
  tag := s.key
  entries := Vector.ofFn fun i => toPort (tableEntry s.cfg.refReg s.polyVal (BitVec.ofNat 8 i.val))

/-- The compact store holding the table of the present key: entries 0 to 15 in `ROW`, entries 0, 16,
..., 240 in `COL` (`42_table_generator.md` R97). -/
def State.compactTable (s : State) : CompactStore where
  valid := true
  tag := s.key
  row := Vector.ofFn fun i => toPort (tableEntry s.cfg.refReg s.polyVal (BitVec.ofNat 8 i.val))
  col := Vector.ofFn fun i => toPort (tableEntry s.cfg.refReg s.polyVal (BitVec.ofNat 8 (16 * i.val)))

/-- The state writes of GEN.T256 (`42_table_generator.md` R96). -/
def State.genDense (s : State) : State := { s with dense := s.denseTable }

/-- The state writes of GEN.T16 (`42_table_generator.md` R97). -/
def State.genCompact (s : State) : State := { s with compact := s.compactTable }

/-- "make DENSE current": generation at first use (`42_table_generator.md` R99). -/
def State.withDense (s : State) : State :=
  { s with dense := if s.denseCurrent then s.dense else s.denseTable }

/-- "make ROW, COL current": generation at first use (`42_table_generator.md` R99). -/
def State.withCompact (s : State) : State :=
  { s with compact := if s.compactCurrent then s.compact else s.compactTable }

/-- The body of an UPD command for a byte step: the bytes of the range through the adapter and the
step, from `CRC` to `CRC` (`43_byte_update.md` R112). -/
def State.runBytes (s : State) (step : BitVec s.w → Byte → BitVec s.w) (bytes : List Byte) : State :=
  s.putCrc (updateReg step s.adaptIn s.crcVal bytes)

/-- The state after the reset event: every element as after reset, with what the host does next still
to come (R190, log entry 8). -/
def afterReset (rest : List HostEvent) : State := { State.reset with pending := rest }

end Sys2Proof.Machine
end

