-- ==== Sys2Proof/Machine/Accumulator.lean ====
section
/-!
DEFINITION. ACC.INIT and ACC.LOAD: loading the accumulator (`45_accumulator_commands.md` R147, R148).
-/

namespace Sys2Proof.Machine

/-- ACC.INIT (R147). -/
def execAccInit (s : State) : Result :=
  s.requireCfg <| .next ((s.loadAcc s.initVal).respond 0)

/-- ACC.LOAD (R148): the value is loaded raw, whatever it is (R149). -/
def execAccLoad (a : Port) (s : State) : Result :=
  s.requireCfg <| s.requireFits s.w a <| .next ((s.loadAcc (ofPort s.w a)).respond 0)

end Sys2Proof.Machine
end

