-- ==== Sys2Proof/Machine/Update.lean ====
section
/-!
DEFINITION. UPD.BIT, UPD.T256, UPD.T16, UPD.X256, UPD.X16: the byte-update datapath
(`43_byte_update.md` R117 to R123). The body of each strategy, without its checks, is an operation of
its own because the CALC commands run it too (`45_accumulator_commands.md` R157).
-/

namespace Sys2Proof.Machine

/-- The body of UPD.BIT: the bit-serial step (R114, R117). -/
def State.bodyBit (s : State) (bytes : List Byte) : State :=
  s.runBytes (stepBit s.cfg.refReg s.polyVal) bytes

/-- The body of UPD.T256: make the dense store current, then the table step over it (R118). -/
def State.bodyT256 (s : State) (bytes : List Byte) : State :=
  s.withDense.runBytes (stepTab s.cfg.refReg s.withDense.readDense) bytes

/-- The body of UPD.T16: make the compact store current, then the table step over it (R119). -/
def State.bodyT16 (s : State) (bytes : List Byte) : State :=
  s.withCompact.runBytes
    (stepTab s.cfg.refReg (compactEntry s.withCompact.readRow s.withCompact.readCol)) bytes

/-- The body of UPD.X256: the table step over the external dense table (R121); no store is read or
written (R120, R122). -/
def State.bodyX256 (s : State) (bytes : List Byte) (xt : ExtTable) : State :=
  s.runBytes (stepTab s.cfg.refReg (xtDense s.w xt)) bytes

/-- The body of UPD.X16: the table step over the external compact table (R123). -/
def State.bodyX16 (s : State) (bytes : List Byte) (xt : ExtTable) : State :=
  s.runBytes (stepTab s.cfg.refReg (compactEntry (xtRow s.w xt) (xtCol s.w xt))) bytes

/-- UPD.BIT (R117). -/
def execUpdBit (bytes : List Byte) (s : State) : Result :=
  s.requireCfg <| s.requireAcc <| .next ((s.bodyBit bytes).respond 0)

/-- UPD.T256 (R118). -/
def execUpdT256 (bytes : List Byte) (s : State) : Result :=
  s.requireCfg <| s.requireAcc <| .next ((s.bodyT256 bytes).respond 0)

/-- UPD.T16 (R119). -/
def execUpdT16 (bytes : List Byte) (s : State) : Result :=
  s.requireCfg <| s.requireAcc <| .next ((s.bodyT16 bytes).respond 0)

/-- UPD.X256 (R121). -/
def execUpdX256 (bytes : List Byte) (xt : ExtTable) (s : State) : Result :=
  s.requireCfg <| s.requireAcc <| s.requireXt xt <| .next ((s.bodyX256 bytes xt).respond 0)

/-- UPD.X16 (R123). -/
def execUpdX16 (bytes : List Byte) (xt : ExtTable) (s : State) : Result :=
  s.requireCfg <| s.requireAcc <| s.requireXt xt <| .next ((s.bodyX16 bytes xt).respond 0)

end Sys2Proof.Machine
end

