-- ==== Sys2Proof/Machine/Calc.lean ====
section
/-!
DEFINITION. CALC.BIT, CALC.T256, CALC.T16, CALC.X256, CALC.X16: one-shot calculation, that is
ACC.INIT, UPD.s, RD.FINAL as one atomic command whose checks all come first
(`45_accumulator_commands.md` R157 to R162).
-/

namespace Sys2Proof.Machine

/-- The fresh accumulator a CALC command starts from (R157). -/
def State.freshAcc (s : State) : State := s.loadAcc s.initVal

/-- The end of a CALC command: the checksum is the result, the register stands (R157). -/
def State.answerFinal (s : State) : State := s.respond (toPort s.finalVal)

/-- CALC.BIT (R158). -/
def execCalcBit (bytes : List Byte) (s : State) : Result :=
  s.requireCfg <| .next (s.freshAcc.bodyBit bytes).answerFinal

/-- CALC.T256 (R159). -/
def execCalcT256 (bytes : List Byte) (s : State) : Result :=
  s.requireCfg <| .next (s.freshAcc.bodyT256 bytes).answerFinal

/-- CALC.T16 (R160). -/
def execCalcT16 (bytes : List Byte) (s : State) : Result :=
  s.requireCfg <| .next (s.freshAcc.bodyT16 bytes).answerFinal

/-- CALC.X256 (R161). -/
def execCalcX256 (bytes : List Byte) (xt : ExtTable) (s : State) : Result :=
  s.requireCfg <| s.requireXt xt <| .next (s.freshAcc.bodyX256 bytes xt).answerFinal

/-- CALC.X16 (R162). -/
def execCalcX16 (bytes : List Byte) (xt : ExtTable) (s : State) : Result :=
  s.requireCfg <| s.requireXt xt <| .next (s.freshAcc.bodyX16 bytes xt).answerFinal

end Sys2Proof.Machine
end

