-- ==== Sys2Proof/Machine/Configuration.lean ====
section
/-!
DEFINITION. CFG.SET: the configuration resolver (`45_accumulator_commands.md` R145, R146).
-/

namespace Sys2Proof.Machine

/-- The nine configuration registers CFG.SET writes; the derived ones at the new width, with the new
`REF_REG` (R145, `10_state.md` R23). -/
def resolve (poly init xorout : Port) (f : BitVec 6) : CfgRegs where
  wc := flagsWidth f
  poly := toPort (ofPort (width (flagsWidth f)) poly)
  init := toPort (ofPort (width (flagsWidth f)) init)
  xorout := toPort (ofPort (width (flagsWidth f)) xorout)
  refIn := flagsRefIn f
  refOut := flagsRefOut f
  refReg := flagsRefReg f
  actualPoly := toPort (reflectIf (flagsRefReg f) (ofPort (width (flagsWidth f)) poly))
  actualInit := toPort (reflectIf (flagsRefReg f) (ofPort (width (flagsWidth f)) init))

/-- The state writes of CFG.SET: the configuration as a whole, `CFG_VALID <- 1`, `ACC_VALID <- 0`;
`CRC` and the table stores stand (R145, R146). -/
def State.configure (s : State) (cfg : CfgRegs) : State :=
  { s with cfg := cfg, cfgValid := true, accValid := false }

/-- CFG.SET (R145). -/
def execCfgSet (poly init xorout : Port) (f : BitVec 6) (s : State) : Result :=
  s.requireFits (width (flagsWidth f)) poly <|
  s.requireFits (width (flagsWidth f)) init <|
  s.requireFits (width (flagsWidth f)) xorout <|
  .next ((s.configure (resolve poly init xorout f)).respond 0)

end Sys2Proof.Machine
end

