-- ==== Sys2Proof/Machine/Generator.lean ====
section
/-!
DEFINITION. GEN.T256 and GEN.T16: the polynomial table generator (`42_table_generator.md` R96, R97).
-/

namespace Sys2Proof.Machine

/-- GEN.T256 (R96). -/
def execGenT256 (s : State) : Result :=
  s.requireCfg <| .next (s.genDense.respond 0)

/-- GEN.T16 (R97). -/
def execGenT16 (s : State) : Result :=
  s.requireCfg <| .next (s.genCompact.respond 0)

end Sys2Proof.Machine
end

