-- ==== Sys2Proof/Machine/Read.lean ====
section
/-!
DEFINITION. RD.INTERIM, RD.RESIDUE, RD.FINAL, RD.T256, RD.ROW, RD.COL: the reads
(`45_accumulator_commands.md` R150 to R156).
-/

namespace Sys2Proof.Machine

/-- RD.INTERIM (R150): the raw register. -/
def execRdInterim (s : State) : Result :=
  s.requireCfg <| s.requireAcc <| .next (s.respond (toPort s.crcVal))

/-- RD.RESIDUE (R151). -/
def execRdResidue (s : State) : Result :=
  s.requireCfg <| s.requireAcc <| .next (s.respond (toPort s.residueVal))

/-- RD.FINAL (R152). -/
def execRdFinal (s : State) : Result :=
  s.requireCfg <| s.requireAcc <| .next (s.respond (toPort s.finalVal))

/-- RD.T256 (R154). -/
def execRdT256 (idx : Byte) (s : State) : Result :=
  s.requireCfg <| .next (s.withDense.respond (toPort (s.withDense.readDense idx)))

/-- RD.ROW (R155). -/
def execRdRow (idx : Byte) (s : State) : Result :=
  s.requireCfg <| s.requireNibble idx <|
  .next (s.withCompact.respond (toPort (s.withCompact.readRow (idx.extractLsb' 0 4))))

/-- RD.COL (R156). -/
def execRdCol (idx : Byte) (s : State) : Result :=
  s.requireCfg <| s.requireNibble idx <|
  .next (s.withCompact.respond (toPort (s.withCompact.readCol (idx.extractLsb' 0 4))))

end Sys2Proof.Machine
end

