-- ==== Sys2Proof/Machine/Reflection.lean ====
section
/-!
DEFINITION. REV.B, REV.H, REV.W, REV.D: the bit-reflection unit (`41_bit_reflection.md` R81 to R84,
R89). They read and write no state and need no configuration.
-/

namespace Sys2Proof.Machine

/-- REV.B (R81). -/
def execRevB (a : Port) (s : State) : Result :=
  s.requireFits 8 a <| .next (s.respond (toPort (rev (ofPort 8 a))))

/-- REV.H (R82). -/
def execRevH (a : Port) (s : State) : Result :=
  s.requireFits 16 a <| .next (s.respond (toPort (rev (ofPort 16 a))))

/-- REV.W (R83). -/
def execRevW (a : Port) (s : State) : Result :=
  s.requireFits 32 a <| .next (s.respond (toPort (rev (ofPort 32 a))))

/-- REV.D (R84): every operand is in range. -/
def execRevD (a : Port) (s : State) : Result :=
  .next (s.respond (rev a))

end Sys2Proof.Machine
end

