-- ==== Sys2Proof/Machine/Residue.lean ====
section
/-!
DEFINITION. RESC: the residue calculator (`44_residue.md` R135). It reads the configuration only and
writes nothing.
-/

namespace Sys2Proof.Machine

/-- RESC (R135). -/
def execResc (s : State) : Result :=
  s.requireCfg <| .next (s.respond (toPort
    (residueConst s.cfg.refIn s.cfg.refOut s.cfg.refReg s.polyVal s.xoroutVal)))

end Sys2Proof.Machine
end

