-- ==== Sys2Proof/Machine/Dispatch.lean ====
section
/-!
DEFINITION. One arm per command: the meaning of each constructor of `Instr` (`30_encoding.md` R64).
-/

namespace Sys2Proof.Machine

def exec (i : Instr) (s : State) : Host.Outcome State Fault Refusal :=
  match i with
  | .revB a => Sys2Proof.Machine.execRevB a s
  | .revH a => Sys2Proof.Machine.execRevH a s
  | .revW a => Sys2Proof.Machine.execRevW a s
  | .revD a => Sys2Proof.Machine.execRevD a s
  | .cfgSet poly init xorout flags => Sys2Proof.Machine.execCfgSet poly init xorout flags s
  | .genT256 => Sys2Proof.Machine.execGenT256 s
  | .genT16 => Sys2Proof.Machine.execGenT16 s
  | .accInit => Sys2Proof.Machine.execAccInit s
  | .accLoad a => Sys2Proof.Machine.execAccLoad a s
  | .updBit bytes => Sys2Proof.Machine.execUpdBit bytes s
  | .updT256 bytes => Sys2Proof.Machine.execUpdT256 bytes s
  | .updT16 bytes => Sys2Proof.Machine.execUpdT16 bytes s
  | .updX256 bytes xt => Sys2Proof.Machine.execUpdX256 bytes xt s
  | .updX16 bytes xt => Sys2Proof.Machine.execUpdX16 bytes xt s
  | .rdInterim => Sys2Proof.Machine.execRdInterim s
  | .rdResidue => Sys2Proof.Machine.execRdResidue s
  | .rdFinal => Sys2Proof.Machine.execRdFinal s
  | .rdT256 idx => Sys2Proof.Machine.execRdT256 idx s
  | .rdRow idx => Sys2Proof.Machine.execRdRow idx s
  | .rdCol idx => Sys2Proof.Machine.execRdCol idx s
  | .calcBit bytes => Sys2Proof.Machine.execCalcBit bytes s
  | .calcT256 bytes => Sys2Proof.Machine.execCalcT256 bytes s
  | .calcT16 bytes => Sys2Proof.Machine.execCalcT16 bytes s
  | .calcX256 bytes xt => Sys2Proof.Machine.execCalcX256 bytes xt s
  | .calcX16 bytes xt => Sys2Proof.Machine.execCalcX16 bytes xt s
  | .resc => Sys2Proof.Machine.execResc s

end Sys2Proof.Machine
end

