-- ==== Sys2Proof/Machine/Serve.lean ====
section
/-!
DEFINITION. What CORE does with the host's next event (`60_exceptions.md` R174, R184, R189,
`70_reset_and_hazards.md` R190): a command is taken from the interface, decoded and executed to
completion; a reserved word is the violation IllegalCommand, not a refusal (log entry 5).
-/

namespace Sys2Proof.Machine

/-- Execute one command as the host issued it. -/
def serve (r : Request) (s : State) : Result :=
  match decode r with
  | .ok i => exec i s
  | .error _ => s.raise .illegalCommand

/-- The host's next event and the state with it taken; nothing when the host has none pending. -/
def fetch (s : State) : Option (HostEvent × State) :=
  match s.pending with
  | [] => none
  | e :: rest => some (e, { s with pending := rest })

/-- One step: the next event of the host, or nothing at all while there is none (log entry 3). -/
def advance (s : State) : Result :=
  match fetch s with
  | none => .next s
  | some (.command r, t) => serve r t
  | some (.reset, t) => .next (afterReset t.pending)

/-- `s` with the opcode-table word issued as the host's next command, before whatever the host has
pending (log entry 12). -/
def State.issueWord (s : State) (nbits w : Nat) : State :=
  { s with pending := .command (tableRequest nbits w) :: s.pending }

end Sys2Proof.Machine
end

