-- ==== Sys2Proof/Machine/Step.lean ====
section
/-!
DEFINITION. The step function: one event of the host, which is one command or the reset event
(`00_scope.md` R12, `20_memory.md` R57).
-/

namespace Sys2Proof.Machine

/-- One step of the machine. -/
def step (s : State) : Host.Outcome State Fault Refusal := advance s

/-- `s` with the opcode-table word `w` of `nbits` bits standing where `step` takes its next command:
the host issues it next. -/
def State.withFetchWord (s : State) (nbits w : Nat) : State := s.issueWord nbits w

end Sys2Proof.Machine
end

