-- ==== Sys2Proof/Safety.lean ====
section
/-!
DEFINITION. The terms in which claims speak: the invariants the spec gives the state (`10_state.md` R23,
R28, R30, R31), a run without violations (R33), states that differ only in elements no command may read
(`70_reset_and_hazards.md` R191), and forms written from the rules apart from the meanings, for the
claims to hold the meanings against: reserved words, listed slots, which violation comes first, the
lookup step, what each command may write.
-/

namespace Sys2Proof.Machine

/-- The invariant of the dense store (R30): while `T256_VALID` = 1 every entry is the entry of the
tagged key, and the tag's polynomial is a value of the tagged width. -/
abbrev DenseStore.Wf (d : DenseStore) : Prop :=
  d.valid = true →
    fits (width d.tag.wc) d.tag.poly = true ∧
    ∀ i : Fin 256, d.entries[i.val]'i.isLt =
      toPort (tableEntry d.tag.refReg (ofPort (width d.tag.wc) d.tag.poly) (BitVec.ofNat 8 i.val))

/-- The invariant of the compact store (R31). -/
abbrev CompactStore.Wf (c : CompactStore) : Prop :=
  c.valid = true →
    fits (width c.tag.wc) c.tag.poly = true ∧
    ∀ i : Fin 16,
      c.row[i.val]'i.isLt =
        toPort (tableEntry c.tag.refReg (ofPort (width c.tag.wc) c.tag.poly) (BitVec.ofNat 8 i.val)) ∧
      c.col[i.val]'i.isLt =
        toPort (tableEntry c.tag.refReg (ofPort (width c.tag.wc) c.tag.poly)
          (BitVec.ofNat 8 (16 * i.val)))

/-- The configuration registers hold values of the configured width (R22) and the derived ones are the
reflections of R23. -/
abbrev CfgRegs.Wf (c : CfgRegs) : Prop :=
  fits (width c.wc) c.poly = true ∧ fits (width c.wc) c.init = true ∧
  fits (width c.wc) c.xorout = true ∧
  c.actualPoly = toPort (reflectIf c.refReg (ofPort (width c.wc) c.poly)) ∧
  c.actualInit = toPort (reflectIf c.refReg (ofPort (width c.wc) c.init))

/-- A response as R172 and R173 allow it: a status from 0 to 5; with a violation's status the result is
0 and `FAULT` is 1. -/
def responseWf (resp : Option Response) (fault : Bool) : Bool :=
  match resp with
  | none => true
  | some r => decide (r.status.toNat ≤ 5) && (r.status == 0 || (r.result == 0 && fault))

/-- The invariant of the machine. -/
structure State.Inv (s : State) : Prop where
  /-- While `CFG_VALID` = 1 the configuration is consistent (R22, R23). -/
  cfg : s.cfgValid = true → s.cfg.Wf
  /-- An accumulator is loaded only under a configuration (R28). -/
  accConfigured : s.accValid = true → s.cfgValid = true
  /-- While `ACC_VALID` = 1 the register holds a `w`-bit value (R26). -/
  acc : s.accValid = true → fits s.w s.crc = true
  /-- The dense store holds the table of its tag (R30). -/
  dense : s.dense.Wf
  /-- The compact store holds the table of its tag (R31). -/
  compact : s.compact.Wf
  /-- The last response is one the spec allows (R172, R173). -/
  resp : responseWf s.resp s.fault = true

/-- No violation has been recorded since reset (`10_state.md` R33). -/
abbrev State.noViolation (s : State) : Prop := s.fault = false

/-- The commands that read a configuration register: all but the REV commands and CFG.SET
(`60_exceptions.md` R175). -/
def needsConfiguration : Instr → Bool
  | .revB _ | .revH _ | .revW _ | .revD _ | .cfgSet _ _ _ _ => false
  | .genT256 | .genT16 | .accInit | .accLoad _ | .resc => true
  | .updBit _ | .updT256 _ | .updT16 _ | .updX256 _ _ | .updX16 _ _ => true
  | .rdInterim | .rdResidue | .rdFinal | .rdT256 _ | .rdRow _ | .rdCol _ => true
  | .calcBit _ | .calcT256 _ | .calcT16 _ | .calcX256 _ _ | .calcX16 _ _ => true

/-- The commands that read the accumulator (`60_exceptions.md` R176). -/
def needsAccumulator : Instr → Bool
  | .updBit _ | .updT256 _ | .updT16 _ | .updX256 _ _ | .updX16 _ _ => true
  | .rdInterim | .rdResidue | .rdFinal => true
  | .revB _ | .revH _ | .revW _ | .revD _ | .cfgSet _ _ _ _ => false
  | .genT256 | .genT16 | .accInit | .accLoad _ | .resc => false
  | .rdT256 _ | .rdRow _ | .rdCol _ => false
  | .calcBit _ | .calcT256 _ | .calcT16 _ | .calcX256 _ _ | .calcX16 _ _ => false

/-- An operand does not fit the type its command gives it, compared as a number (`60_exceptions.md`
R178). The width of CFG.SET is the one its own flags word selects. -/
def operandTooWide (i : Instr) (s : State) : Bool :=
  match i with
  | .revB a => decide (2 ^ 8 ≤ a.toNat)
  | .revH a => decide (2 ^ 16 ≤ a.toNat)
  | .revW a => decide (2 ^ 32 ≤ a.toNat)
  | .cfgSet poly init xorout f =>
      decide (2 ^ (8 * 2 ^ (f.toNat % 4)) ≤ poly.toNat) ||
      decide (2 ^ (8 * 2 ^ (f.toNat % 4)) ≤ init.toNat) ||
      decide (2 ^ (8 * 2 ^ (f.toNat % 4)) ≤ xorout.toNat)
  | .accLoad a => decide (2 ^ (8 * 2 ^ s.cfg.wc.toNat) ≤ a.toNat)
  | .rdRow idx => decide (15 < idx.toNat)
  | .rdCol idx => decide (15 < idx.toNat)
  | .revD _ | .genT256 | .genT16 | .accInit | .resc => false
  | .updBit _ | .updT256 _ | .updT16 _ | .updX256 _ _ | .updX16 _ _ => false
  | .rdInterim | .rdResidue | .rdFinal | .rdT256 _ => false
  | .calcBit _ | .calcT256 _ | .calcT16 _ | .calcX256 _ _ | .calcX16 _ _ => false

/-- The command reads an external table whose width code is not `WC` (`60_exceptions.md` R177). -/
def tableOfOtherWidth (i : Instr) (s : State) : Bool :=
  match i with
  | .updX256 _ xt | .updX16 _ xt | .calcX256 _ xt | .calcX16 _ xt => decide (xt.wc ≠ s.cfg.wc)
  | .revB _ | .revH _ | .revW _ | .revD _ | .cfgSet _ _ _ _ => false
  | .genT256 | .genT16 | .accInit | .accLoad _ | .resc => false
  | .updBit _ | .updT256 _ | .updT16 _ | .calcBit _ | .calcT256 _ | .calcT16 _ => false
  | .rdInterim | .rdResidue | .rdFinal | .rdT256 _ | .rdRow _ | .rdCol _ => false

/-- The first violation that applies to a command in a state, in the order of `60_exceptions.md` R179;
none when the command succeeds. -/
def firstViolation (i : Instr) (s : State) : Option Violation :=
  if needsConfiguration i && !s.cfgValid then some .notConfigured
  else if operandTooWide i s then some .operandRange
  else if needsAccumulator i && !s.accValid then some .accNotLoaded
  else if tableOfOtherWidth i s then some .extTableWidth
  else none

/-- Two states that differ at most in elements whose valid bit is 0 (`70_reset_and_hazards.md` R191):
the configuration registers while `CFG_VALID` = 0, `CRC` while `ACC_VALID` = 0, a table and its tag while
its valid bit is 0. -/
structure State.SameGuarded (s t : State) : Prop where
  cfgValid : s.cfgValid = t.cfgValid
  cfg : s.cfgValid = true → s.cfg = t.cfg
  accValid : s.accValid = t.accValid
  crc : s.accValid = true → s.crc = t.crc
  denseValid : s.dense.valid = t.dense.valid
  dense : s.dense.valid = true → s.dense = t.dense
  compactValid : s.compact.valid = t.compact.valid
  compact : s.compact.valid = true → s.compact = t.compact
  fault : s.fault = t.fault
  pending : s.pending = t.pending
  resp : s.resp = t.resp

/-- The bytes of a `w`-bit checksum in the order of `20_memory.md` R52: the lowest byte first
(little-endian) when `lowFirst`, else the highest byte first (big-endian). -/
def checksumBytes (w : Nat) (f : Port) (lowFirst : Bool) : List Byte :=
  let low := (List.range (w / 8)).map fun k => f.extractLsb' (8 * k) 8
  if lowFirst then low else low.reverse

/-! ### Forms written from the rules, apart from the meanings -/

/-- The reserved command words as `30_encoding.md` R68 lists them, by bit, group and selector. -/
def reservedWord (cmd : Byte) : Bool :=
  let grp := cmd.toNat / 16 % 8
  let sel := cmd.toNat % 8
  cmd.getLsbD 7 || cmd.getLsbD 3 ||
  (grp == 0 && decide (4 ≤ sel)) || (grp == 1 && decide (1 ≤ sel)) ||
  (grp == 2 && decide (2 ≤ sel)) || (grp == 3 && decide (2 ≤ sel)) ||
  (grp == 4 && decide (5 ≤ sel)) || (grp == 5 && decide (6 ≤ sel)) ||
  (grp == 6 && decide (5 ≤ sel)) || (grp == 7 && decide (1 ≤ sel))

/-- The slots a command's row of `30_encoding.md` R64 lists, as given; every other slot zero. -/
def listedSlots (i : Instr) (o : Slots) : Slots :=
  match i with
  | .revB _ | .revH _ | .revW _ | .revD _ | .accLoad _ => { Slots.zero with a := o.a }
  | .cfgSet _ _ _ _ => { Slots.zero with a := o.a, b := o.b, c := o.c, f := o.f }
  | .genT256 | .genT16 | .accInit | .rdInterim | .rdResidue | .rdFinal | .resc => Slots.zero
  | .rdT256 _ | .rdRow _ | .rdCol _ => { Slots.zero with idx := o.idx }
  | .updBit _ | .updT256 _ | .updT16 _ | .calcBit _ | .calcT256 _ | .calcT16 _ =>
      { Slots.zero with s := o.s }
  | .updX256 _ _ | .updX16 _ _ | .calcX256 _ _ | .calcX16 _ _ =>
      { Slots.zero with s := o.s, xt := o.xt }

/-- `v` is `rev_n` of the `n`-bit value in `a`, bit by bit, zero-extended (`41_bit_reflection.md`
R80). -/
def reversedAt (n : Nat) (a v : Port) : Prop :=
  ∀ i, v.getLsbD i = (decide (i < n) && a.getLsbD (n - 1 - i))

/-- The lookup step as the two formulas of `43_byte_update.md` R115 write it. -/
def lookupStep {w : Nat} (refReg : Bool) (look : Byte → BitVec w) (reg : BitVec w) (b : Byte) :
    BitVec w :=
  if refReg then look (reg.setWidth 8 ^^^ b) ^^^ (reg >>> 8)
  else look ((reg >>> (w - 8)).setWidth 8 ^^^ b) ^^^ (reg <<< 8)

/-- `CRC` after the bytes of a range, each reversed when `REF_IN != REF_REG`, have gone through a byte
step from first to last (`43_byte_update.md` R110, R112). -/
def State.feed (s : State) (step : BitVec s.w → Byte → BitVec s.w) (bytes : List Byte) : Port :=
  toPort (bytes.foldl
    (fun reg b => step reg (if s.cfg.refIn = s.cfg.refReg then b else b.reverse)) s.crcVal)

/-- The dense store of a command that needs it current (`42_table_generator.md` R99): the store as it
stood when it was current, else the table of the present key. -/
structure State.DenseMadeCurrent (s : State) (d : DenseStore) : Prop where
  valid : d.valid = true
  tag : d.tag = s.key
  entries : ∀ i : Fin 256, d.entries[i.val]'i.isLt =
    toPort (tableEntry s.cfg.refReg s.polyVal (BitVec.ofNat 8 i.val))
  kept : s.denseCurrent = true → d = s.dense

/-- The compact store of a command that needs it current (`42_table_generator.md` R99). -/
structure State.CompactMadeCurrent (s : State) (c : CompactStore) : Prop where
  valid : c.valid = true
  tag : c.tag = s.key
  row : ∀ i : Fin 16, c.row[i.val]'i.isLt =
    toPort (tableEntry s.cfg.refReg s.polyVal (BitVec.ofNat 8 i.val))
  col : ∀ i : Fin 16, c.col[i.val]'i.isLt =
    toPort (tableEntry s.cfg.refReg s.polyVal (BitVec.ofNat 8 (16 * i.val)))
  kept : s.compactCurrent = true → c = s.compact

/-- The five update strategies (`30_encoding.md` R62, `90_conflicts.md` C2). -/
inductive Strategy where
  | bit
  | t256
  | t16
  | x256
  | x16
  deriving DecidableEq, Repr

/-- The strategy reads an external table. -/
def Strategy.external : Strategy → Bool
  | .bit | .t256 | .t16 => false
  | .x256 | .x16 => true

/-- The external table a strategy reads, if it reads one, is built for the present width and holds the
entries of the present key where that strategy reads it (`20_memory.md` R46, R48). -/
def Strategy.Matches (k : Strategy) (s : State) (xt : ExtTable) : Prop :=
  match k with
  | .bit => True
  | .t256 => True
  | .t16 => True
  | .x256 => xt.wc = s.cfg.wc ∧ ∀ i : Byte, xtDense s.w xt i = tableEntry s.cfg.refReg s.polyVal i
  | .x16 => xt.wc = s.cfg.wc ∧ ∀ i : BitVec 4,
      xtRow s.w xt i = tableEntry s.cfg.refReg s.polyVal (i.setWidth 8) ∧
      xtCol s.w xt i = tableEntry s.cfg.refReg s.polyVal (i.setWidth 8 <<< 4)

/-- UPD.s; an external table the strategy does not read is ignored. -/
def Strategy.upd (k : Strategy) (bytes : List Byte) (xt : ExtTable) : Instr :=
  match k with
  | .bit => .updBit bytes
  | .t256 => .updT256 bytes
  | .t16 => .updT16 bytes
  | .x256 => .updX256 bytes xt
  | .x16 => .updX16 bytes xt

/-- CALC.s; an external table the strategy does not read is ignored. -/
def Strategy.calc (k : Strategy) (bytes : List Byte) (xt : ExtTable) : Instr :=
  match k with
  | .bit => .calcBit bytes
  | .t256 => .calcT256 bytes
  | .t16 => .calcT16 bytes
  | .x256 => .calcX256 bytes xt
  | .x16 => .calcX16 bytes xt

/-- `q` is the state after CALC.s of the data; `m` the state after ACC.INIT and UPD.s of the codeword,
the data followed by the bytes of the checksum CALC.s answered, in the order `REF_IN` implies
(`20_memory.md` R52). -/
def State.FeedsCodeword (s : State) (k : Strategy) (data : List Byte) (xt : ExtTable)
    (q m : State) : Prop :=
  ∃ (a : State) (checksum : Port),
    exec (k.calc data xt) s = .next q ∧ q.resp = some ⟨0, checksum⟩ ∧
    exec .accInit s = .next a ∧
    exec (k.upd (data ++ checksumBytes s.w checksum s.cfg.refIn) xt) a = .next m

/-- The command writes configuration registers: CFG.SET alone (`10_state.md` R20, R34). -/
def writesConfiguration : Instr → Bool
  | .cfgSet _ _ _ _ => true
  | _ => false

/-- The command writes `CRC` (`10_state.md` R26). -/
def writesAccumulator : Instr → Bool
  | .accInit | .accLoad _ => true
  | .updBit _ | .updT256 _ | .updT16 _ | .updX256 _ _ | .updX16 _ _ => true
  | .calcBit _ | .calcT256 _ | .calcT16 _ | .calcX256 _ _ | .calcX16 _ _ => true
  | _ => false

/-- The command loads a fresh accumulator and so sets `ACC_VALID` (`10_state.md` R28,
`70_reset_and_hazards.md` R191). -/
def setsAccValid : Instr → Bool
  | .accInit | .accLoad _ => true
  | .calcBit _ | .calcT256 _ | .calcT16 _ | .calcX256 _ _ | .calcX16 _ _ => true
  | _ => false

/-- The command generates the dense table, at once or at first use (`42_table_generator.md` R96,
R99). -/
def usesDense : Instr → Bool
  | .genT256 | .updT256 _ | .calcT256 _ | .rdT256 _ => true
  | _ => false

/-- The command generates the compact table, at once or at first use (`42_table_generator.md` R97,
R99). -/
def usesCompact : Instr → Bool
  | .genT16 | .updT16 _ | .calcT16 _ | .rdRow _ | .rdCol _ => true
  | _ => false

/-- How many bits the result of a command has (`30_encoding.md` R63, R64): 0 for a command that
returns nothing. -/
def resultWidth (i : Instr) (s : State) : Nat :=
  match i with
  | .revB _ => 8
  | .revH _ => 16
  | .revW _ => 32
  | .revD _ => 64
  | .rdInterim | .rdResidue | .rdFinal | .rdT256 _ | .rdRow _ | .rdCol _ | .resc => s.w
  | .calcBit _ | .calcT256 _ | .calcT16 _ | .calcX256 _ _ | .calcX16 _ _ => s.w
  | .cfgSet _ _ _ _ | .genT256 | .genT16 | .accInit | .accLoad _ => 0
  | .updBit _ | .updT256 _ | .updT16 _ | .updX256 _ _ | .updX16 _ _ => 0

end Sys2Proof.Machine
end

