-- ==== Sys2Proof/Certificates/Slice0/Obligations.lean ====
section
/-!
DEFINITION. The statements about CORE for the provers. Each docstring names the rules of the spec it
formalises. Where a statement takes `State.Inv` as a premise, that invariant is itself stated: reset
meets it (`ResetMeetsInvariant`) and every step keeps it (`StepKeepsInvariant`).
-/

open Sys2Proof Sys2Proof.Machine

/-! ### Reset, the invariant, and the step -/

/-- The reset event (R190), applied between commands: the four valid bits and FAULT are 0 right after
it, and there every command but REV.* and CFG.SET answers NotConfigured. Two clauses rest on the
model's choices: that the state after it is one and the same whatever stood before, the elements the
spec gives no value included (zeros, log entry 4), and that what the host does after the reset event
still stands, `t.pending = rest` (log entry 8). -/
def Obligations.ResetEventStartsAfresh : Prop :=
  ∀ (s s' : State) (rest : List HostEvent),
    s.pending = .reset :: rest → s'.pending = .reset :: rest →
    ∃ t : State, step s = .next t ∧ step s' = .next t ∧
      t.cfgValid = false ∧ t.accValid = false ∧ t.dense.valid = false ∧ t.compact.valid = false ∧
      t.fault = false ∧ t.pending = rest ∧
      ∀ i : Instr, needsConfiguration i = true →
        exec i t = .next { t with fault := true, resp := some ⟨2, 0⟩ }

/-- The valid bits and FAULT are 0 after reset (R37), and what the other elements hold never
matters: a machine that starts with any other content in them and is given the same events by the
host answers the same, for ever. (The zeros this model puts there are log entry 4; the statement
says that nothing depends on them.) -/
def Obligations.ResetContentsNeverMatter : Prop :=
  (State.reset.cfgValid = false ∧ State.reset.accValid = false ∧ State.reset.dense.valid = false ∧
    State.reset.compact.valid = false ∧ State.reset.fault = false) ∧
  ∀ (t : State) (events : List HostEvent) (n : Nat),
    t.cfgValid = false → t.accValid = false → t.dense.valid = false → t.compact.valid = false →
    t.fault = false → t.resp = State.reset.resp →
    ∃ s' t' : State,
      Host.Core.run Sys2Proof.core n { State.reset with pending := events } = .next s' ∧
      Host.Core.run Sys2Proof.core n { t with pending := events } = .next t' ∧
      State.SameGuarded s' t'

/-- The guard rule of R191 as a whole-machine statement: of two states that differ only in elements
whose valid bit is 0, a step makes two states that differ only in such elements. So no command reads
a guarded element. -/
def Obligations.GuardedElementsAreUnobservable : Prop :=
  ∀ s t : State, State.SameGuarded s t →
    ∃ s' t' : State, step s = .next s' ∧ step t = .next t' ∧ State.SameGuarded s' t'

/-- The state after reset meets the invariant. -/
def Obligations.ResetMeetsInvariant : Prop := State.Inv State.reset

/-- Every step keeps the invariant, whatever the host does: what R22, R23, R26, R28, R30, R31, R172
and R173 say of the state. -/
def Obligations.StepKeepsInvariant : Prop :=
  ∀ s t : State, State.Inv s → step s = .next t → State.Inv t

/-- While the host has nothing pending, CORE waits and nothing changes. This is the model's choice
(log entry 3): R190 says only that CORE waits for its first command. -/
def Obligations.NothingPendingNothingHappens : Prop :=
  ∀ s : State, s.pending = [] → step s = .next s

/-- A step runs the decoded command: when the host's next event is a command whose word and slots
decode to `i`, the step takes it from the interface and does what `exec i` does. -/
def Obligations.StepRunsDecodedCommand : Prop :=
  ∀ (s : State) (r : Request) (rest : List HostEvent) (i : Instr),
    s.pending = .command r :: rest → decode r = .ok i →
    step s = exec i { s with pending := rest }

/-! ### Encoding -/

/-- The words R68 lists, 230 of the 256, are no commands, and each of them ends the step with the
status IllegalCommand, result 0 and nothing written but FAULT, whatever the operands and the state
(R68, R174); every other word is a command. That such a word is answered, and not refused by the
model, is log entry 5. -/
def Obligations.ReservedWordsAreIllegalCommands : Prop :=
  ((List.range 256).filter (fun n => reservedWord (BitVec.ofNat 8 n))).length = 230 ∧
  (∀ (s : State) (r : Request) (rest : List HostEvent),
    s.pending = .command r :: rest → reservedWord r.cmd = true →
    step s = .next { s with pending := rest, fault := true, resp := some ⟨1, 0⟩ }) ∧
  ∀ r : Request, reservedWord r.cmd = false → ∃ i : Instr, decode r = .ok i

/-- Decoder and encoder agree in both directions, for every command and every value of every
operand: the encoding of a command decodes to it, and a request that decodes to a command is the
command's encoding in the word and in every slot the command's row lists. -/
def Obligations.DecodeAndEncodeAgree : Prop :=
  (∀ i : Instr, decode (encode i) = .ok i) ∧
  ∀ (r : Request) (i : Instr), decode r = .ok i → encode i = ⟨r.cmd, listedSlots i r.slots⟩

/-- R67, and the slots of R63: whether a word is a command, and which, depends on the word alone;
the slots its row does not list have no effect on what the command is. -/
def Obligations.UnlistedSlotsAreIgnored : Prop :=
  ∀ (r r' : Request) (i : Instr), r.cmd = r'.cmd → decode r = .ok i →
    (∃ i' : Instr, decode r' = .ok i' ∧ (encode i').cmd = (encode i).cmd) ∧
    (listedSlots i r.slots = listedSlots i r'.slots → decode r' = .ok i)

/-- A few words of R64 written out bit by bit: one of each group. -/
def Obligations.SomeWordsDecode : Prop :=
  ∀ o : Slots,
    decode ⟨0b00000010, o⟩ = .ok (.revW o.a) ∧
    decode ⟨0b00010000, o⟩ = .ok (.cfgSet o.a o.b o.c o.f) ∧
    decode ⟨0b00100001, o⟩ = .ok .genT16 ∧
    decode ⟨0b00110001, o⟩ = .ok (.accLoad o.a) ∧
    decode ⟨0b01000011, o⟩ = .ok (.updX256 o.s o.xt) ∧
    decode ⟨0b01010101, o⟩ = .ok (.rdCol o.idx) ∧
    decode ⟨0b01100010, o⟩ = .ok (.calcT16 o.s) ∧
    decode ⟨0b01110000, o⟩ = .ok .resc

/-! ### Bit reversal -/

/-- R81 to R84. The REV commands, in any state: the operand's bits in reversed order at the
command's width, nothing else written; an operand too wide is OperandRange. -/
def Obligations.RevCommandsReverse : Prop :=
  (∀ o : Slots,
    decode ⟨0x00, o⟩ = .ok (.revB o.a) ∧ decode ⟨0x01, o⟩ = .ok (.revH o.a) ∧
    decode ⟨0x02, o⟩ = .ok (.revW o.a) ∧ decode ⟨0x03, o⟩ = .ok (.revD o.a)) ∧
  ∀ (s : State) (a : Port),
    (a.toNat < 2 ^ 8 → ∃ v, reversedAt 8 a v ∧
      exec (.revB a) s = .next { s with resp := some ⟨0, v⟩ }) ∧
    (2 ^ 8 ≤ a.toNat →
      exec (.revB a) s = .next { s with fault := true, resp := some ⟨3, 0⟩ }) ∧
    (a.toNat < 2 ^ 16 → ∃ v, reversedAt 16 a v ∧
      exec (.revH a) s = .next { s with resp := some ⟨0, v⟩ }) ∧
    (2 ^ 16 ≤ a.toNat →
      exec (.revH a) s = .next { s with fault := true, resp := some ⟨3, 0⟩ }) ∧
    (a.toNat < 2 ^ 32 → ∃ v, reversedAt 32 a v ∧
      exec (.revW a) s = .next { s with resp := some ⟨0, v⟩ }) ∧
    (2 ^ 32 ≤ a.toNat →
      exec (.revW a) s = .next { s with fault := true, resp := some ⟨3, 0⟩ }) ∧
    ∃ v, reversedAt 64 a v ∧ exec (.revD a) s = .next { s with resp := some ⟨0, v⟩ }

/-- R85. The laws of bit reversal: involution, bijection, XOR, AND, OR, zero, all ones, the shifts,
the single bit, and the palindromes. -/
def Obligations.ReversalLaws : Prop :=
  ∀ (w : Nat),
    (∀ v : BitVec w, rev (rev v) = v) ∧
    Function.Bijective (fun v : BitVec w => rev v) ∧
    (∀ a b : BitVec w, rev (a ^^^ b) = rev a ^^^ rev b ∧ rev (a &&& b) = rev a &&& rev b ∧
      rev (a ||| b) = rev a ||| rev b) ∧
    rev (0#w) = 0#w ∧ rev (BitVec.allOnes w) = BitVec.allOnes w ∧
    (∀ (v : BitVec w) (k : Nat), k < w → rev (v <<< k) = rev v >>> k ∧ rev (v >>> k) = rev v <<< k) ∧
    (∀ i : Nat, i < w → rev (BitVec.twoPow w i) = BitVec.twoPow w (w - 1 - i)) ∧
    ∀ v : BitVec w, rev v = v ↔ ∀ i : Nat, i < w → v.getLsbD i = v.getLsbD (w - 1 - i)

/-! ### Configuration -/

/-- R145. CFG.SET with operands that fit the width its flags word selects installs exactly the
configuration given, with the derived registers, sets CFG_VALID, clears ACC_VALID and writes nothing
else; with an operand that does not fit it is OperandRange and nothing is written but FAULT. -/
def Obligations.CfgSetInstallsConfiguration : Prop :=
  (∀ o : Slots, decode ⟨0x10, o⟩ = .ok (.cfgSet o.a o.b o.c o.f)) ∧
  ∀ (s : State) (poly init xorout : Port) (f : BitVec 6),
    let w := 8 * 2 ^ (f.toNat % 4)
    let refReg := if f.getLsbD 4 then f.getLsbD 5 else f.getLsbD 2
    (poly.toNat < 2 ^ w ∧ init.toNat < 2 ^ w ∧ xorout.toNat < 2 ^ w →
      ∃ p i : Port,
        (if refReg then reversedAt w poly p ∧ reversedAt w init i else p = poly ∧ i = init) ∧
        exec (.cfgSet poly init xorout f) s = .next { s with
          cfg := ⟨BitVec.ofNat 2 (f.toNat % 4), poly, init, xorout, f.getLsbD 2, f.getLsbD 3, refReg,
            p, i⟩
          cfgValid := true
          accValid := false
          resp := some ⟨0, 0⟩ }) ∧
    (2 ^ w ≤ poly.toNat ∨ 2 ^ w ≤ init.toNat ∨ 2 ^ w ≤ xorout.toNat →
      exec (.cfgSet poly init xorout f) s =
        .next { s with fault := true, resp := some ⟨3, 0⟩ })

/-- R146. The table stores stand across a CFG.SET, and each is current after it exactly when it is
valid and the new triple equals its tag. -/
def Obligations.CfgSetKeepsTableStores : Prop :=
  ∀ (s : State) (poly init xorout : Port) (f : BitVec 6),
    operandTooWide (.cfgSet poly init xorout f) s = false →
    ∃ t : State, exec (.cfgSet poly init xorout f) s = .next t ∧
      t.dense = s.dense ∧ t.compact = s.compact ∧
      (t.denseCurrent = true ↔ s.dense.valid = true ∧ t.cfg.wc = s.dense.tag.wc ∧
        t.cfg.actualPoly = s.dense.tag.poly ∧ t.cfg.refReg = s.dense.tag.refReg) ∧
      (t.compactCurrent = true ↔ s.compact.valid = true ∧ t.cfg.wc = s.compact.tag.wc ∧
        t.cfg.actualPoly = s.compact.tag.poly ∧ t.cfg.refReg = s.compact.tag.refReg)

/-- CFG.SET alone writes the configuration: every other command leaves all nine registers and
CFG_VALID as they were (R20, R34). -/
def Obligations.OnlyCfgSetWritesConfiguration : Prop :=
  ∀ (i : Instr) (s : State), writesConfiguration i = false →
    ∃ t : State, exec i s = .next t ∧ t.cfg = s.cfg ∧ t.cfgValid = s.cfgValid

/-! ### The bit round and the tables -/

/-- R90, R91. The two rounds bit by bit, and that they are mirror images. -/
def Obligations.RoundsBitByBit : Prop :=
  ∀ (w : Nat) (reg poly : BitVec w),
    (∀ i, i < w →
      (bitRound false reg poly).getLsbD i =
        ((decide (0 < i) && reg.getLsbD (i - 1)) ^^ (reg.getLsbD (w - 1) && poly.getLsbD i)) ∧
      (bitRound true reg poly).getLsbD i =
        (reg.getLsbD (i + 1) ^^ (reg.getLsbD 0 && poly.getLsbD i))) ∧
    bitRound true (rev reg) (rev poly) = rev (bitRound false reg poly)

/-- R95. Any number of rounds is linear over XOR in the register. -/
def Obligations.RoundsAreLinear : Prop :=
  ∀ (w : Nat) (r : Bool) (poly a b : BitVec w) (n : Nat),
    rounds r (a ^^^ b) poly n = rounds r a poly n ^^^ rounds r b poly n ∧
    rounds r (0#w) poly n = 0#w

/-- R101. The fixed entries of every table. -/
def Obligations.TablesHaveFixedEntries : Prop :=
  ∀ (wc : WidthCode) (r : Bool) (poly : BitVec (width wc)),
    tableEntry r poly 0x00 = 0#(width wc) ∧
    tableEntry false poly 0x01 = poly ∧
    tableEntry true poly 0x80 = poly

/-- R98. The nibble construction: the entry of a row nibble combined with a column nibble is the XOR
of the two primitive entries, and these 16 x 16 combinations cover every index exactly once. -/
def Obligations.NibbleConstructionIsTheTable : Prop :=
  ∀ (wc : WidthCode) (r : Bool) (poly : BitVec (width wc)),
    tableEntry r poly 0 = 0#(width wc) ∧
    (∀ k i : Byte, k.toNat % 16 = 0 → i.toNat < 16 →
      tableEntry r poly (k ^^^ i) = tableEntry r poly k ^^^ tableEntry r poly i) ∧
    ∀ j : Byte, ∃! p : Byte × Byte, p.1.toNat % 16 = 0 ∧ p.2.toNat < 16 ∧ j = p.1 ^^^ p.2

/-- R102. The skip_bits short cut is an identity for the first column under the reflected convention
and for the first row under the unreflected one; and it is not one for the unreflected column. -/
def Obligations.SkipBitsShortCut : Prop :=
  (∀ (wc : WidthCode) (poly : BitVec (width wc)) (j : Byte), j.toNat < 16 →
    tableEntry true poly (j <<< 4) = rounds true (j.setWidth (width wc)) poly 4 ∧
    tableEntry false poly j = rounds false (j.setWidth (width wc) <<< (width wc - 4)) poly 4) ∧
  tableEntry false (0x1021#16) 0x10 = 0x1231#16 ∧ rounds false (0x0000#16) (0x1021#16) 4 = 0x0000#16

/-- R104. The tables of the two conventions mirror each other. -/
def Obligations.TablesMirror : Prop :=
  ∀ (wc : WidthCode) (poly : BitVec (width wc)) (i : Byte),
    tableEntry true (rev poly) (rev i) = rev (tableEntry false poly i)

/-- R96, R97. GEN.T256 and GEN.T16 write the whole table of the present key with its tag and valid
bit, and nothing else; without a configuration they are NotConfigured. -/
def Obligations.GenWritesWholeTable : Prop :=
  (∀ o : Slots, decode ⟨0x20, o⟩ = .ok .genT256 ∧ decode ⟨0x21, o⟩ = .ok .genT16) ∧
  ∀ s : State,
    (s.cfgValid = true →
      (∃ es : Vector Port 256,
        (∀ i : Fin 256, es[i.val]'i.isLt =
          toPort (tableEntry s.cfg.refReg s.polyVal (BitVec.ofNat 8 i.val))) ∧
        exec .genT256 s = .next { s with
          dense := ⟨true, ⟨s.cfg.wc, toPort s.polyVal, s.cfg.refReg⟩, es⟩
          resp := some ⟨0, 0⟩ }) ∧
      ∃ row col : Vector Port 16,
        (∀ i : Fin 16,
          row[i.val]'i.isLt =
            toPort (tableEntry s.cfg.refReg s.polyVal (BitVec.ofNat 8 i.val)) ∧
          col[i.val]'i.isLt =
            toPort (tableEntry s.cfg.refReg s.polyVal (BitVec.ofNat 8 (16 * i.val)))) ∧
        exec .genT16 s = .next { s with
          compact := ⟨true, ⟨s.cfg.wc, toPort s.polyVal, s.cfg.refReg⟩, row, col⟩
          resp := some ⟨0, 0⟩ }) ∧
    (s.cfgValid = false →
      exec .genT256 s = .next { s with fault := true, resp := some ⟨2, 0⟩ } ∧
      exec .genT16 s = .next { s with fault := true, resp := some ⟨2, 0⟩ })

/-- R44, R103. Dense and compact agree: with both stores current the dense entry is the XOR of the
row entry of the low nibble and the column entry of the high nibble, and the three table reads of
the host show it in every configured state, current or not. -/
def Obligations.DenseEqualsCompact : Prop :=
  ∀ (s : State) (i : Byte), State.Inv s →
    (s.denseCurrent = true → s.compactCurrent = true →
      s.readDense i = s.readRow (i.extractLsb' 0 4) ^^^ s.readCol (i.extractLsb' 4 4)) ∧
    (s.cfgValid = true → ∃ (t1 t2 t3 : State) (d r c : Port),
      exec (.rdT256 i) s = .next t1 ∧ t1.resp = some ⟨0, d⟩ ∧
      exec (.rdRow (i &&& 0x0F)) s = .next t2 ∧ t2.resp = some ⟨0, r⟩ ∧
      exec (.rdCol (i >>> 4)) s = .next t3 ∧ t3.resp = some ⟨0, c⟩ ∧
      d = r ^^^ c)

/-- Tables are immutable once generated (R32): a command leaves a table store as it was, or is one
of the commands that generate it and replaces the whole store by the table of the present key. -/
def Obligations.TableStoresChangeOnlyAsAWhole : Prop :=
  ∀ (i : Instr) (s : State), ∃ t : State, exec i s = .next t ∧
    (t.dense = s.dense ∨ usesDense i = true ∧ s.cfgValid = true ∧ t.dense.valid = true ∧
      t.dense.tag = ⟨s.cfg.wc, toPort s.polyVal, s.cfg.refReg⟩ ∧
      ∀ j : Fin 256, t.dense.entries[j.val]'j.isLt =
        toPort (tableEntry s.cfg.refReg s.polyVal (BitVec.ofNat 8 j.val))) ∧
    (t.compact = s.compact ∨ usesCompact i = true ∧ s.cfgValid = true ∧ t.compact.valid = true ∧
      t.compact.tag = ⟨s.cfg.wc, toPort s.polyVal, s.cfg.refReg⟩ ∧
      ∀ j : Fin 16,
        t.compact.row[j.val]'j.isLt =
          toPort (tableEntry s.cfg.refReg s.polyVal (BitVec.ofNat 8 j.val)) ∧
        t.compact.col[j.val]'j.isLt =
          toPort (tableEntry s.cfg.refReg s.polyVal (BitVec.ofNat 8 (16 * j.val))))

/-! ### The accumulator -/

/-- R147. ACC.INIT. -/
def Obligations.AccInitLoadsAdjustedInit : Prop :=
  (∀ o : Slots, decode ⟨0x30, o⟩ = .ok .accInit) ∧
  ∀ s : State,
    (State.Inv s → s.cfgValid = true →
      exec .accInit s = .next { s with
        crc := s.cfg.actualInit, accValid := true, resp := some ⟨0, 0⟩ }) ∧
    (s.cfgValid = false →
      exec .accInit s = .next { s with fault := true, resp := some ⟨2, 0⟩ })

/-- R148. ACC.LOAD: every `w`-bit value is loaded raw; a wider one is OperandRange, after the check
of the configuration. -/
def Obligations.AccLoadLoadsRaw : Prop :=
  (∀ o : Slots, decode ⟨0x31, o⟩ = .ok (.accLoad o.a)) ∧
  ∀ (s : State) (a : Port),
    (s.cfgValid = true → a.toNat < 2 ^ (8 * 2 ^ s.cfg.wc.toNat) →
      exec (.accLoad a) s = .next { s with
        crc := a, accValid := true, resp := some ⟨0, 0⟩ }) ∧
    (s.cfgValid = true → 2 ^ (8 * 2 ^ s.cfg.wc.toNat) ≤ a.toNat →
      exec (.accLoad a) s = .next { s with fault := true, resp := some ⟨3, 0⟩ }) ∧
    (s.cfgValid = false →
      exec (.accLoad a) s = .next { s with fault := true, resp := some ⟨2, 0⟩ })

/-- Who writes the accumulator (R26, R28): CRC is written by ACC.*, UPD.* and CALC.* alone;
ACC_VALID is set by ACC.* and CALC.* alone and cleared by CFG.SET alone. -/
def Obligations.WhoWritesTheAccumulator : Prop :=
  ∀ (i : Instr) (s : State), ∃ t : State, exec i s = .next t ∧
    (writesAccumulator i = false → t.crc = s.crc) ∧
    (s.accValid = false → t.accValid = true → setsAccValid i = true) ∧
    (s.accValid = true → t.accValid = false → writesConfiguration i = true)

/-! ### Byte update -/

/-- R117, with R110, R112, R114 written out. UPD.BIT. -/
def Obligations.UpdBitResult : Prop :=
  (∀ o : Slots, decode ⟨0x40, o⟩ = .ok (.updBit o.s)) ∧
  ∀ (s : State) (bytes : List Byte),
    (s.cfgValid = true → s.accValid = true →
      exec (.updBit bytes) s = .next { s with
        crc := s.feed (fun reg b => rounds s.cfg.refReg
          (reg ^^^ (if s.cfg.refReg then b.setWidth s.w else b.setWidth s.w <<< (s.w - 8)))
          s.polyVal 8) bytes
        resp := some ⟨0, 0⟩ }) ∧
    (s.cfgValid = false →
      exec (.updBit bytes) s = .next { s with fault := true, resp := some ⟨2, 0⟩ }) ∧
    (s.cfgValid = true → s.accValid = false →
      exec (.updBit bytes) s = .next { s with fault := true, resp := some ⟨4, 0⟩ })

/-- R118, R119, with R99 and R115 written out. UPD.T256 and UPD.T16: the store is made current,
every read of it gives the entry of the present key, and nothing else is written. -/
def Obligations.UpdInternalTableResult : Prop :=
  (∀ o : Slots, decode ⟨0x41, o⟩ = .ok (.updT256 o.s) ∧ decode ⟨0x42, o⟩ = .ok (.updT16 o.s)) ∧
  ∀ (s : State) (bytes : List Byte),
    (State.Inv s → s.cfgValid = true → s.accValid = true →
      (∃ d : DenseStore, s.DenseMadeCurrent d ∧
        exec (.updT256 bytes) s = .next { s with
          crc := s.feed (lookupStep s.cfg.refReg (tableEntry s.cfg.refReg s.polyVal)) bytes
          dense := d
          resp := some ⟨0, 0⟩ }) ∧
      ∃ c : CompactStore, s.CompactMadeCurrent c ∧
        exec (.updT16 bytes) s = .next { s with
          crc := s.feed (lookupStep s.cfg.refReg (fun i =>
            tableEntry s.cfg.refReg s.polyVal (i &&& 0x0F) ^^^
            tableEntry s.cfg.refReg s.polyVal (i &&& 0xF0))) bytes
          compact := c
          resp := some ⟨0, 0⟩ }) ∧
    (s.cfgValid = false →
      exec (.updT256 bytes) s = .next { s with fault := true, resp := some ⟨2, 0⟩ } ∧
      exec (.updT16 bytes) s = .next { s with fault := true, resp := some ⟨2, 0⟩ }) ∧
    (s.cfgValid = true → s.accValid = false →
      exec (.updT256 bytes) s = .next { s with fault := true, resp := some ⟨4, 0⟩ } ∧
      exec (.updT16 bytes) s = .next { s with fault := true, resp := some ⟨4, 0⟩ })

/-- R121, R123, with R47 and R48. UPD.X256 and UPD.X16: the formula on whatever entries the external
table holds, each truncated to `w` bits; no store is written; a table of another width is
ExtTableWidth. -/
def Obligations.UpdExternalTableResult : Prop :=
  (∀ o : Slots,
    decode ⟨0x43, o⟩ = .ok (.updX256 o.s o.xt) ∧ decode ⟨0x44, o⟩ = .ok (.updX16 o.s o.xt)) ∧
  ∀ (s : State) (bytes : List Byte) (xt : ExtTable),
    (s.cfgValid = true → s.accValid = true → xt.wc = s.cfg.wc →
      exec (.updX256 bytes xt) s = .next { s with
        crc := s.feed (lookupStep s.cfg.refReg (fun i =>
          (xt.dense[i.toNat]'i.isLt).setWidth s.w)) bytes
        resp := some ⟨0, 0⟩ } ∧
      exec (.updX16 bytes xt) s = .next { s with
        crc := s.feed (lookupStep s.cfg.refReg (fun i =>
          (xt.row[i.toNat % 16]'(Nat.mod_lt _ (by decide))).setWidth s.w ^^^
          (xt.col[i.toNat / 16]'(by have := i.isLt; omega)).setWidth s.w)) bytes
        resp := some ⟨0, 0⟩ }) ∧
    ∀ i ∈ [Instr.updX256 bytes xt, Instr.updX16 bytes xt],
      (s.cfgValid = false → exec i s = .next { s with fault := true, resp := some ⟨2, 0⟩ }) ∧
      (s.cfgValid = true → s.accValid = false →
        exec i s = .next { s with fault := true, resp := some ⟨4, 0⟩ }) ∧
      (s.cfgValid = true → s.accValid = true → xt.wc ≠ s.cfg.wc →
        exec i s = .next { s with fault := true, resp := some ⟨5, 0⟩ })

/-- R116. At width 8 the lookup step replaces the whole register, under either convention. -/
def Obligations.LookupStepAtWidthEight : Prop :=
  ∀ (r : Bool) (look : Byte → BitVec 8) (reg : BitVec 8) (b : Byte),
    stepTab r look reg b = look (reg ^^^ b)

/-- R134. The bit-serial step and the lookup step over the table of the key agree. -/
def Obligations.ByteStepsAgree : Prop :=
  ∀ (wc : WidthCode) (r : Bool) (poly reg : BitVec (width wc)) (b : Byte),
    stepBit r poly reg b = stepTab r (tableEntry r poly) reg b

/-- R129. Strategy equivalence: from one configured state with a loaded accumulator all five update
commands on the same range leave the same CRC, and strategies may be mixed between the chunks of one
message; the external ones under the premise that the external table holds the entries of the
present key where the strategy reads it. -/
def Obligations.StrategiesAreEquivalent : Prop :=
  ∀ s : State, State.Inv s → s.cfgValid = true → s.accValid = true →
    (∀ bytes : List Byte, ∃ crc : Port, ∀ (k : Strategy) (xt : ExtTable), k.Matches s xt →
      ∃ t : State, exec (k.upd bytes xt) s = .next t ∧ t.crc = crc ∧ t.resp = some ⟨0, 0⟩) ∧
    ∀ (k k' k'' : Strategy) (first second : List Byte) (xt xt' xt'' : ExtTable),
      k.Matches s xt → k'.Matches s xt' → k''.Matches s xt'' →
      ∃ m t u : State, exec (k.upd first xt) s = .next m ∧ exec (k'.upd second xt') m = .next t ∧
        exec (k''.upd (first ++ second) xt'') s = .next u ∧ t.crc = u.crc

/-- R128. Chunking: for every strategy, a range split anywhere and given in two commands leaves the
state the whole range leaves in one. -/
def Obligations.ChunkingChangesNothing : Prop :=
  ∀ (k : Strategy) (s : State) (first second : List Byte) (xt : ExtTable), s.cfgValid = true →
    s.accValid = true → (k.external = true → xt.wc = s.cfg.wc) →
    ∃ m t : State, exec (k.upd first xt) s = .next m ∧ exec (k.upd second xt) m = .next t ∧
      exec (k.upd (first ++ second) xt) s = .next t

/-- R113. The empty range: CRC stands, the command succeeds, an internal table its strategy reads is
current after it, and the preconditions are still checked. -/
def Obligations.EmptyRangeKeepsCrc : Prop :=
  ∀ (k : Strategy) (s : State) (xt : ExtTable),
    (State.Inv s → s.cfgValid = true → s.accValid = true →
      (k.external = true → xt.wc = s.cfg.wc) →
      ∃ t : State, exec (k.upd [] xt) s = .next t ∧ t.crc = s.crc ∧ t.resp = some ⟨0, 0⟩ ∧
        (k = .t256 → t.denseCurrent = true) ∧ (k = .t16 → t.compactCurrent = true)) ∧
    (s.cfgValid = false →
      exec (k.upd [] xt) s = .next { s with fault := true, resp := some ⟨2, 0⟩ }) ∧
    (s.cfgValid = true → s.accValid = false →
      exec (k.upd [] xt) s = .next { s with fault := true, resp := some ⟨4, 0⟩ }) ∧
    (s.cfgValid = true → s.accValid = true → k.external = true → xt.wc ≠ s.cfg.wc →
      exec (k.upd [] xt) s = .next { s with fault := true, resp := some ⟨5, 0⟩ })

/-- R131, R141. `ref_reg` is invisible in results: two configurations given by CFG.SET that differ
only in the override of `ref_reg` give the same checksum of every message under every strategy, the
same residue after it and the same residue constant; when their `ref_reg` differ, the raw registers
after the message are bit reversals of each other. -/
def Obligations.RefRegIsInvisible : Prop :=
  ∀ (s : State) (poly init xorout : Port) (f g : BitVec 6), State.Inv s →
    operandTooWide (.cfgSet poly init xorout f) s = false →
    f.extractLsb' 0 4 = g.extractLsb' 0 4 →
    ∃ s1 s2 e1 e2 : State,
      exec (.cfgSet poly init xorout f) s = .next s1 ∧
      exec (.cfgSet poly init xorout g) s = .next s2 ∧
      exec .resc s1 = .next e1 ∧ exec .resc s2 = .next e2 ∧ e1.resp = e2.resp ∧
      ∀ (k : Strategy) (bytes : List Byte) (x1 x2 : ExtTable),
        k.Matches s1 x1 → k.Matches s2 x2 →
        ∃ t1 t2 r1 r2 f1 f2 : State,
          exec (k.calc bytes x1) s1 = .next t1 ∧ exec (k.calc bytes x2) s2 = .next t2 ∧
          t1.resp = t2.resp ∧
          exec .rdResidue t1 = .next r1 ∧ exec .rdResidue t2 = .next r2 ∧ r1.resp = r2.resp ∧
          exec .rdFinal t1 = .next f1 ∧ exec .rdFinal t2 = .next f2 ∧ f1.resp = f2.resp ∧
          (s1.cfg.refReg ≠ s2.cfg.refReg → reversedAt s1.w t1.crc t2.crc)

/-! ### Reads and one-shot calculation -/

/-- R150 to R153. RD.INTERIM gives the raw register, RD.RESIDUE the register reflected when `REF_REG
!= REF_OUT`, RD.FINAL the residue XOR XOROUT; none of them writes anything. -/
def Obligations.AccumulatorReads : Prop :=
  (∀ o : Slots,
    decode ⟨0x50, o⟩ = .ok .rdInterim ∧ decode ⟨0x51, o⟩ = .ok .rdResidue ∧
    decode ⟨0x52, o⟩ = .ok .rdFinal) ∧
  ∀ s : State,
    (State.Inv s → s.cfgValid = true → s.accValid = true → ∃ residue : Port,
      (if s.cfg.refReg = s.cfg.refOut then residue = s.crc else reversedAt s.w s.crc residue) ∧
      exec .rdInterim s = .next { s with resp := some ⟨0, s.crc⟩ } ∧
      exec .rdResidue s = .next { s with resp := some ⟨0, residue⟩ } ∧
      exec .rdFinal s = .next { s with resp := some ⟨0, residue ^^^ s.cfg.xorout⟩ }) ∧
    ∀ i ∈ [Instr.rdInterim, Instr.rdResidue, Instr.rdFinal],
      (s.cfgValid = false → exec i s = .next { s with fault := true, resp := some ⟨2, 0⟩ }) ∧
      (s.cfgValid = true → s.accValid = false →
        exec i s = .next { s with fault := true, resp := some ⟨4, 0⟩ })

/-- R154 to R156. RD.T256, RD.ROW and RD.COL give entries `IDX`, `IDX` and `16 * IDX` of the table
of the present key, making the store current first and writing nothing else; an index above 15 of
RD.ROW or RD.COL is OperandRange. -/
def Obligations.TableReads : Prop :=
  (∀ o : Slots,
    decode ⟨0x53, o⟩ = .ok (.rdT256 o.idx) ∧ decode ⟨0x54, o⟩ = .ok (.rdRow o.idx) ∧
    decode ⟨0x55, o⟩ = .ok (.rdCol o.idx)) ∧
  ∀ (s : State) (idx : Byte),
    (State.Inv s → s.cfgValid = true →
      (∃ d : DenseStore, s.DenseMadeCurrent d ∧
        exec (.rdT256 idx) s = .next { s with
          dense := d, resp := some ⟨0, toPort (tableEntry s.cfg.refReg s.polyVal idx)⟩ }) ∧
      (idx.toNat < 16 → ∃ c : CompactStore, s.CompactMadeCurrent c ∧
        exec (.rdRow idx) s = .next { s with
          compact := c, resp := some ⟨0, toPort (tableEntry s.cfg.refReg s.polyVal idx)⟩ } ∧
        exec (.rdCol idx) s = .next { s with
          compact := c
          resp := some ⟨0, toPort (tableEntry s.cfg.refReg s.polyVal (idx <<< 4))⟩ })) ∧
    (s.cfgValid = true → 15 < idx.toNat →
      exec (.rdRow idx) s = .next { s with fault := true, resp := some ⟨3, 0⟩ } ∧
      exec (.rdCol idx) s = .next { s with fault := true, resp := some ⟨3, 0⟩ }) ∧
    (s.cfgValid = false → ∀ i ∈ [Instr.rdT256 idx, Instr.rdRow idx, Instr.rdCol idx],
      exec i s = .next { s with fault := true, resp := some ⟨2, 0⟩ })

/-- R157 to R162. CALC.s is ACC.INIT, UPD.s, RD.FINAL in one command: it completes in the state
those three leave, and its checks come before any of it. -/
def Obligations.CalcIsInitUpdateFinal : Prop :=
  (∀ o : Slots,
    decode ⟨0x60, o⟩ = .ok (.calcBit o.s) ∧ decode ⟨0x61, o⟩ = .ok (.calcT256 o.s) ∧
    decode ⟨0x62, o⟩ = .ok (.calcT16 o.s) ∧ decode ⟨0x63, o⟩ = .ok (.calcX256 o.s o.xt) ∧
    decode ⟨0x64, o⟩ = .ok (.calcX16 o.s o.xt)) ∧
  ∀ (k : Strategy) (s : State) (bytes : List Byte) (xt : ExtTable),
    (s.cfgValid = true → (k.external = true → xt.wc = s.cfg.wc) →
      ∃ a m t : State, exec .accInit s = .next a ∧ exec (k.upd bytes xt) a = .next m ∧
        exec .rdFinal m = .next t ∧ exec (k.calc bytes xt) s = .next t ∧
        ∃ v : Port, t.resp = some ⟨0, v⟩) ∧
    (s.cfgValid = false →
      exec (k.calc bytes xt) s = .next { s with fault := true, resp := some ⟨2, 0⟩ }) ∧
    (s.cfgValid = true → k.external = true → xt.wc ≠ s.cfg.wc →
      exec (k.calc bytes xt) s = .next { s with fault := true, resp := some ⟨5, 0⟩ })

/-- The last sentence of R194. Saving and restoring around another configuration: RD.INTERIM, any
CFG.SET, the CFG.SET that brings the configuration back, ACC.LOAD of the saved value give the
accumulator, the configuration and the table stores back as they were. -/
def Obligations.SaveAndRestoreAroundConfiguration : Prop :=
  ∀ (s : State) (poly init xorout : Port) (f g : BitVec 6), State.Inv s → s.cfgValid = true →
    s.accValid = true → operandTooWide (.cfgSet poly init xorout f) s = false →
    flagsWidth g = s.cfg.wc → flagsRefIn g = s.cfg.refIn → flagsRefOut g = s.cfg.refOut →
    flagsRefReg g = s.cfg.refReg →
    ∃ (a b c d : State) (v : Port),
      exec .rdInterim s = .next a ∧ a.resp = some ⟨0, v⟩ ∧
      exec (.cfgSet poly init xorout f) a = .next b ∧ b.accValid = false ∧
      exec (.cfgSet s.cfg.poly s.cfg.init s.cfg.xorout g) b = .next c ∧
      exec (.accLoad v) c = .next d ∧ d = { s with resp := some ⟨0, 0⟩ }

/-! ### The residue calculator -/

/-- R135. RESC: two reflections with two conditions, exactly `w` rounds between them, nothing
written; without a configuration it is NotConfigured. -/
def Obligations.RescResult : Prop :=
  (∀ o : Slots, decode ⟨0x70, o⟩ = .ok .resc) ∧
  ∀ s : State,
    (s.cfgValid = true →
      let v0 := if s.cfg.refReg = s.cfg.refOut then s.xoroutVal else s.xoroutVal.reverse
      let v1 := rounds s.cfg.refReg v0 s.polyVal (8 * 2 ^ s.cfg.wc.toNat)
      let v2 := if s.cfg.refReg = s.cfg.refIn then v1 else v1.reverse
      exec .resc s = .next { s with resp := some ⟨0, v2.setWidth 64⟩ }) ∧
    (s.cfgValid = false →
      exec .resc s = .next { s with fault := true, resp := some ⟨2, 0⟩ })

/-- R136. The `w` rounds of RESC are `w / 8` zero bytes through the byte step of any strategy: the
bit-serial step (UPD.BIT), the lookup of an entry (UPD.T256, UPD.X256), the lookup of a row and a column
entry (UPD.T16, UPD.X16). -/
def Obligations.RescRoundsAreZeroBytes : Prop :=
  ∀ (wc : WidthCode) (r : Bool) (poly v0 : BitVec (width wc)),
    rounds r v0 poly (width wc) =
      (List.replicate (width wc / 8) (0 : Byte)).foldl (stepBit r poly) v0 ∧
    rounds r v0 poly (width wc) =
      (List.replicate (width wc / 8) (0 : Byte)).foldl (stepTab r (tableEntry r poly)) v0 ∧
    rounds r v0 poly (width wc) =
      (List.replicate (width wc / 8) (0 : Byte)).foldl
        (stepTab r fun i => tableEntry r poly (i &&& 0x0F) ^^^ tableEntry r poly (i &&& 0xF0)) v0

/-- R143, its first sentence. With `REF_IN = REF_OUT`, RESC equals ACC.LOAD of the reflected XOROUT,
UPD.s of `w / 8` zero bytes, RD.RESIDUE. -/
def Obligations.RescFromTheAccumulator : Prop :=
  ∀ (k : Strategy) (s : State) (xt : ExtTable), State.Inv s → s.cfgValid = true →
    s.cfg.refIn = s.cfg.refOut → k.Matches s xt →
    ∃ (v0 : Port) (a m t e : State),
      (if s.cfg.refReg = s.cfg.refOut then v0 = s.cfg.xorout
        else reversedAt s.w s.cfg.xorout v0) ∧
      exec (.accLoad v0) s = .next a ∧
      exec (k.upd (List.replicate (s.w / 8) 0) xt) a = .next m ∧
      exec .rdResidue m = .next t ∧ exec .resc s = .next e ∧ t.resp = e.resp

/-- R138. The residue round trip, under `REF_IN = REF_OUT`: for any data and any strategy, the data
followed by its own checksum, in the byte order `REF_IN` implies (R52), fed into a fresh accumulator
leaves the residue RESC returns. -/
def Obligations.ResidueRoundTrip : Prop :=
  ∀ (k : Strategy) (s : State) (data : List Byte) (xt : ExtTable), State.Inv s →
    s.cfgValid = true → s.cfg.refIn = s.cfg.refOut → k.Matches s xt →
    ∃ (q a m t e : State) (checksum : Port),
      exec (k.calc data xt) s = .next q ∧ q.resp = some ⟨0, checksum⟩ ∧
      exec .accInit s = .next a ∧
      exec (k.upd (data ++ checksumBytes s.w checksum s.cfg.refIn) xt) a = .next m ∧
      exec .rdResidue m = .next t ∧ exec .resc s = .next e ∧ t.resp = e.resp

/-- R139 and R140. With `REF_IN != REF_OUT` the register after a codeword is the `w` rounds of
`R ^ rev_w(R)` XOR a constant, `R` the register after the data; and no constant residue exists: under
one such configuration, the one of R140's example, there are two messages whose codewords leave
different values of RD.RESIDUE. -/
def Obligations.CodewordUnderMixedFlags : Prop :=
  (∀ (k : Strategy) (s : State) (data : List Byte) (xt : ExtTable), State.Inv s →
    s.cfgValid = true → s.cfg.refIn ≠ s.cfg.refOut → k.Matches s xt →
    ∃ q m : State, s.FeedsCodeword k data xt q m ∧
      let reg : BitVec s.w := q.crc.setWidth s.w
      m.crc = (rounds s.cfg.refReg
        (reg ^^^ reg.reverse ^^^
          (if s.cfg.refReg = s.cfg.refIn then s.xoroutVal else s.xoroutVal.reverse))
        s.polyVal s.w).setWidth 64) ∧
  ∃ s : State, exec (.cfgSet 0x1021 0xFFFF 0x1234 0x09) State.reset = .next s ∧
    ∃ (data data' : List Byte) (q m q' m' t t' : State),
      s.FeedsCodeword .bit data .zero q m ∧ s.FeedsCodeword .bit data' .zero q' m' ∧
      exec .rdResidue m = .next t ∧ exec .rdResidue m' = .next t' ∧ t.resp ≠ t'.resp

/-! ### Violations and responses -/

/-- R172. Violations are precise: a command that answers a status other than 0 has written nothing
but FAULT, and its result is 0; and the next command executes normally, for with FAULT set every
command does what it does with FAULT clear. -/
def Obligations.ViolationsArePrecise : Prop :=
  ∀ (i : Instr) (s : State),
    (∃ (t : State) (status : BitVec 3) (result : Port),
      exec i s = .next t ∧ t.resp = some ⟨status, result⟩ ∧
      (status ≠ 0 → t = { s with fault := true, resp := some ⟨status, 0⟩ })) ∧
    (s.fault = false → ∃ t : State, exec i s = .next t ∧
      exec i { s with fault := true } = .next { t with fault := true })

/-- R175 to R178, in the order of R179. Which status a command answers, in every state and for every
operand: the first violation that applies of NotConfigured, OperandRange, AccNotLoaded,
ExtTableWidth, and 0 when none does. (That a reserved word comes before all of them is
`ReservedWordsAreIllegalCommands`.) -/
def Obligations.FirstViolationIsReported : Prop :=
  ∀ (i : Instr) (s : State), ∃ (t : State) (result : Port), exec i s = .next t ∧
    t.resp = some ⟨match firstViolation i s with
      | none => 0
      | some .illegalCommand => 1
      | some .notConfigured => 2
      | some .operandRange => 3
      | some .accNotLoaded => 4
      | some .extTableWidth => 5, result⟩

/-- FAULT is sticky (R33, R180): a command sets it exactly when it answers a violation and never
clears it, and a step that clears it is the reset event. -/
def Obligations.FaultIsSticky : Prop :=
  (∀ (i : Instr) (s : State), ∃ (t : State) (r : Response), exec i s = .next t ∧ t.resp = some r ∧
    t.fault = (s.fault || decide (r.status ≠ 0))) ∧
  ∀ s t : State, step s = .next t → s.fault = true → t.fault = false →
    ∃ rest : List HostEvent, s.pending = .reset :: rest

/-- Every command completes with exactly one response, of the sizes R63 gives, and takes nothing
else from the host. -/
def Obligations.EveryCommandAnswersOnce : Prop :=
  ∀ (i : Instr) (s : State) (rest : List HostEvent),
    ∃ (t : State) (r : Response),
      step { s with pending := .command (encode i) :: rest } = .next t ∧ t.resp = some r ∧
      t.pending = rest ∧ r.result.toNat < 2 ^ resultWidth i s

/-- How the valid bits change (R191): CFG_VALID and the valid bits of the stores go from 1 to 0 only
by reset, and from 0 to 1 only by a successful CFG.SET or a generation; ACC_VALID goes to 0 only by
reset or a successful CFG.SET and to 1 only by ACC.* and CALC.*. -/
def Obligations.ValidBitsChangeOnlySo : Prop :=
  ∀ (s t : State), step s = .next t → (∀ rest, s.pending ≠ .reset :: rest) →
    (s.cfgValid = true → t.cfgValid = true) ∧
    (s.dense.valid = true → t.dense.valid = true) ∧
    (s.compact.valid = true → t.compact.valid = true) ∧
    ∀ (r : Request) (rest : List HostEvent) (i : Instr), s.pending = .command r :: rest →
      decode r = .ok i →
      (t.cfgValid ≠ s.cfgValid → writesConfiguration i = true ∧ t.resp = some ⟨0, 0⟩) ∧
      (t.dense.valid ≠ s.dense.valid → usesDense i = true) ∧
      (t.compact.valid ≠ s.compact.valid → usesCompact i = true) ∧
      (s.accValid = false → t.accValid = true → setsAccValid i = true) ∧
      (s.accValid = true → t.accValid = false →
        writesConfiguration i = true ∧ t.resp = some ⟨0, 0⟩)

/-! ### The index spaces -/

/-- R45, and the index ranges of the internal stores that R40 and R56 fix. Entry 0 is zero in every
valid table, dense, row, column and combined, and RD.T256, RD.ROW and RD.COL of index 0 answer 0; under
a configuration RD.T256 has an entry at every index of a byte, RD.ROW and RD.COL at the indices below 16
and no others. -/
def Obligations.IndexRangesAndEntryZero : Prop :=
  ∀ s : State, State.Inv s →
    (s.dense.valid = true → s.dense.entries[0] = 0) ∧
    (s.compact.valid = true → s.compact.row[0] = 0 ∧ s.compact.col[0] = 0 ∧
      compactEntry s.readRow s.readCol 0 = 0) ∧
    (s.cfgValid = true →
      (∀ i ∈ [Instr.rdT256 0, Instr.rdRow 0, Instr.rdCol 0], ∃ t : State,
        exec i s = .next t ∧ t.resp = some ⟨0, 0⟩) ∧
      ∀ idx : Byte, ∃ (t1 t2 t3 : State) (v1 v2 v3 : Port) (status : BitVec 3),
        exec (.rdT256 idx) s = .next t1 ∧ t1.resp = some ⟨0, v1⟩ ∧
        exec (.rdRow idx) s = .next t2 ∧ t2.resp = some ⟨status, v2⟩ ∧
        exec (.rdCol idx) s = .next t3 ∧ t3.resp = some ⟨status, v3⟩ ∧
        (status = 0 ↔ idx.toNat < 16))
end

