-- ==== Sys2Proof/Laws/Bits.lean ====
section
/-!
SUPPORT. The small lemmas of the arithmetic in `Sys2Proof/Machine/Bits.lean`: widths, containers, operand
ranges, bit reversal, rounds, and the update of a register over a byte range.
-/

namespace Sys2Proof.Machine

theorem width_cases (wc : WidthCode) :
    width wc = 8 ∨ width wc = 16 ∨ width wc = 32 ∨ width wc = 64 := by
  revert wc; decide

theorem width_eq_mul (wc : WidthCode) : width wc = 8 * 2 ^ wc.toNat := by
  revert wc; decide

theorem eight_le_width (wc : WidthCode) : 8 ≤ width wc := by
  revert wc; decide

theorem width_le_sixtyFour (wc : WidthCode) : width wc ≤ 64 := by
  revert wc; decide

theorem width_pos (wc : WidthCode) : 0 < width wc := by
  revert wc; decide

@[simp] theorem ofPort_toPort {w : Nat} (h : w ≤ 64) (v : BitVec w) : ofPort w (toPort v) = v := by
  simp [ofPort, toPort, BitVec.setWidth_setWidth_of_le _ h]

@[simp] theorem ofPort_width_toPort (wc : WidthCode) (v : BitVec (width wc)) :
    ofPort (width wc) (toPort v) = v :=
  ofPort_toPort (width_le_sixtyFour wc) v

theorem toPort_injective {w : Nat} (h : w ≤ 64) {u v : BitVec w} (e : toPort u = toPort v) :
    u = v := by
  rw [← ofPort_toPort h u, e, ofPort_toPort h]

theorem fits_iff (n : Nat) (a : Port) : fits n a = true ↔ a.toNat < 2 ^ n := by
  rw [fits, beq_iff_eq, ← BitVec.toNat_inj, BitVec.toNat_ushiftRight, Nat.shiftRight_eq_div_pow]
  simp

theorem fits_eq_false_iff (n : Nat) (a : Port) : fits n a = false ↔ 2 ^ n ≤ a.toNat := by
  rw [← Bool.not_eq_true, fits_iff]; omega

@[simp] theorem fits_toPort {w : Nat} (v : BitVec w) : fits w (toPort v) = true := by
  rw [fits_iff, toPort, BitVec.toNat_setWidth]
  exact lt_of_le_of_lt (Nat.mod_le _ _) v.isLt

theorem toPort_ofPort {n : Nat} {a : Port} (h : fits n a = true) : toPort (ofPort n a) = a := by
  rw [fits_iff] at h
  apply BitVec.eq_of_toNat_eq
  simp [toPort, ofPort, Nat.mod_eq_of_lt h, Nat.mod_eq_of_lt a.isLt]

theorem nibbleIndex_iff (idx : Byte) : nibbleIndex idx = true ↔ idx.toNat < 16 := by
  simp [nibbleIndex]

theorem rev_getLsbD {w i : Nat} (v : BitVec w) (h : i < w) :
    (rev v).getLsbD i = v.getLsbD (w - 1 - i) := by
  rw [rev, BitVec.getLsbD_reverse, BitVec.getMsbD_eq_getLsbD]
  simp [h]

theorem rev_zero (w : Nat) : rev 0#w = 0#w := by
  apply BitVec.eq_of_getLsbD_eq
  intro i hi
  simp [rev_getLsbD _ hi]

@[simp] theorem reflectIf_true {w : Nat} (v : BitVec w) : reflectIf true v = rev v := rfl

@[simp] theorem reflectIf_false {w : Nat} (v : BitVec w) : reflectIf false v = v := rfl

@[simp] theorem rounds_zero {w : Nat} (r : Bool) (reg poly : BitVec w) :
    rounds r reg poly 0 = reg := rfl

theorem rounds_succ {w : Nat} (r : Bool) (reg poly : BitVec w) (n : Nat) :
    rounds r reg poly (n + 1) = bitRound r (rounds r reg poly n) poly := rfl

theorem rounds_add {w : Nat} (r : Bool) (reg poly : BitVec w) (m n : Nat) :
    rounds r reg poly (m + n) = rounds r (rounds r reg poly m) poly n := by
  induction n with
  | zero => rfl
  | succ n ih => rw [← Nat.add_assoc, rounds_succ, ih, rounds_succ]

@[simp] theorem updateReg_nil {w : Nat} (f : BitVec w → Byte → BitVec w) (g : Byte → Byte)
    (reg : BitVec w) : updateReg f g reg [] = reg := rfl

@[simp] theorem updateReg_cons {w : Nat} (f : BitVec w → Byte → BitVec w) (g : Byte → Byte)
    (reg : BitVec w) (b : Byte) (bytes : List Byte) :
    updateReg f g reg (b :: bytes) = updateReg f g (f reg (g b)) bytes := rfl

theorem updateReg_append {w : Nat} (f : BitVec w → Byte → BitVec w) (g : Byte → Byte)
    (reg : BitVec w) (as bs : List Byte) :
    updateReg f g reg (as ++ bs) = updateReg f g (updateReg f g reg as) bs := by
  simp [updateReg, List.foldl_append]

theorem updateReg_congr {w : Nat} {f f' : BitVec w → Byte → BitVec w}
    (h : ∀ reg b, f reg b = f' reg b) (g : Byte → Byte) (reg : BitVec w) (bytes : List Byte) :
    updateReg f g reg bytes = updateReg f' g reg bytes := by
  rw [funext fun reg => funext fun b => h reg b]

end Sys2Proof.Machine
end

