-- ==== Sys2Proof/Laws/State.lean ====
section
/-!
SUPPORT. What each update of the state does to each field: one lemma per field per update, true by rfl,
so that no proof unfolds a record update.
-/

namespace Sys2Proof.Machine

variable (s : State)

@[simp] theorem State.respond_cfg (v : Port) : (s.respond v).cfg = s.cfg := rfl
@[simp] theorem State.respond_cfgValid (v : Port) : (s.respond v).cfgValid = s.cfgValid := rfl
@[simp] theorem State.respond_crc (v : Port) : (s.respond v).crc = s.crc := rfl
@[simp] theorem State.respond_accValid (v : Port) : (s.respond v).accValid = s.accValid := rfl
@[simp] theorem State.respond_dense (v : Port) : (s.respond v).dense = s.dense := rfl
@[simp] theorem State.respond_compact (v : Port) : (s.respond v).compact = s.compact := rfl
@[simp] theorem State.respond_fault (v : Port) : (s.respond v).fault = s.fault := rfl
@[simp] theorem State.respond_pending (v : Port) : (s.respond v).pending = s.pending := rfl
@[simp] theorem State.respond_resp (v : Port) : (s.respond v).resp = some ⟨0, v⟩ := rfl

@[simp] theorem State.violate_cfg (v : Violation) : (s.violate v).cfg = s.cfg := rfl
@[simp] theorem State.violate_cfgValid (v : Violation) : (s.violate v).cfgValid = s.cfgValid := rfl
@[simp] theorem State.violate_crc (v : Violation) : (s.violate v).crc = s.crc := rfl
@[simp] theorem State.violate_accValid (v : Violation) : (s.violate v).accValid = s.accValid := rfl
@[simp] theorem State.violate_dense (v : Violation) : (s.violate v).dense = s.dense := rfl
@[simp] theorem State.violate_compact (v : Violation) : (s.violate v).compact = s.compact := rfl
@[simp] theorem State.violate_fault (v : Violation) : (s.violate v).fault = true := rfl
@[simp] theorem State.violate_pending (v : Violation) : (s.violate v).pending = s.pending := rfl
@[simp] theorem State.violate_resp (v : Violation) :
    (s.violate v).resp = some ⟨statusCode v, 0⟩ := rfl

@[simp] theorem State.putCrc_cfg (v : BitVec s.w) : (s.putCrc v).cfg = s.cfg := rfl
@[simp] theorem State.putCrc_cfgValid (v : BitVec s.w) : (s.putCrc v).cfgValid = s.cfgValid := rfl
@[simp] theorem State.putCrc_crc (v : BitVec s.w) : (s.putCrc v).crc = toPort v := rfl
@[simp] theorem State.putCrc_accValid (v : BitVec s.w) : (s.putCrc v).accValid = s.accValid := rfl
@[simp] theorem State.putCrc_dense (v : BitVec s.w) : (s.putCrc v).dense = s.dense := rfl
@[simp] theorem State.putCrc_compact (v : BitVec s.w) : (s.putCrc v).compact = s.compact := rfl
@[simp] theorem State.putCrc_fault (v : BitVec s.w) : (s.putCrc v).fault = s.fault := rfl
@[simp] theorem State.putCrc_pending (v : BitVec s.w) : (s.putCrc v).pending = s.pending := rfl
@[simp] theorem State.putCrc_resp (v : BitVec s.w) : (s.putCrc v).resp = s.resp := rfl

@[simp] theorem State.loadAcc_cfg (v : BitVec s.w) : (s.loadAcc v).cfg = s.cfg := rfl
@[simp] theorem State.loadAcc_cfgValid (v : BitVec s.w) : (s.loadAcc v).cfgValid = s.cfgValid := rfl
@[simp] theorem State.loadAcc_crc (v : BitVec s.w) : (s.loadAcc v).crc = toPort v := rfl
@[simp] theorem State.loadAcc_accValid (v : BitVec s.w) : (s.loadAcc v).accValid = true := rfl
@[simp] theorem State.loadAcc_dense (v : BitVec s.w) : (s.loadAcc v).dense = s.dense := rfl
@[simp] theorem State.loadAcc_compact (v : BitVec s.w) : (s.loadAcc v).compact = s.compact := rfl
@[simp] theorem State.loadAcc_fault (v : BitVec s.w) : (s.loadAcc v).fault = s.fault := rfl
@[simp] theorem State.loadAcc_pending (v : BitVec s.w) : (s.loadAcc v).pending = s.pending := rfl
@[simp] theorem State.loadAcc_resp (v : BitVec s.w) : (s.loadAcc v).resp = s.resp := rfl

@[simp] theorem State.genDense_cfg : s.genDense.cfg = s.cfg := rfl
@[simp] theorem State.genDense_cfgValid : s.genDense.cfgValid = s.cfgValid := rfl
@[simp] theorem State.genDense_crc : s.genDense.crc = s.crc := rfl
@[simp] theorem State.genDense_accValid : s.genDense.accValid = s.accValid := rfl
@[simp] theorem State.genDense_dense : s.genDense.dense = s.denseTable := rfl
@[simp] theorem State.genDense_compact : s.genDense.compact = s.compact := rfl
@[simp] theorem State.genDense_fault : s.genDense.fault = s.fault := rfl
@[simp] theorem State.genDense_pending : s.genDense.pending = s.pending := rfl
@[simp] theorem State.genDense_resp : s.genDense.resp = s.resp := rfl

@[simp] theorem State.genCompact_cfg : s.genCompact.cfg = s.cfg := rfl
@[simp] theorem State.genCompact_cfgValid : s.genCompact.cfgValid = s.cfgValid := rfl
@[simp] theorem State.genCompact_crc : s.genCompact.crc = s.crc := rfl
@[simp] theorem State.genCompact_accValid : s.genCompact.accValid = s.accValid := rfl
@[simp] theorem State.genCompact_dense : s.genCompact.dense = s.dense := rfl
@[simp] theorem State.genCompact_compact : s.genCompact.compact = s.compactTable := rfl
@[simp] theorem State.genCompact_fault : s.genCompact.fault = s.fault := rfl
@[simp] theorem State.genCompact_pending : s.genCompact.pending = s.pending := rfl
@[simp] theorem State.genCompact_resp : s.genCompact.resp = s.resp := rfl

@[simp] theorem State.withDense_cfg : s.withDense.cfg = s.cfg := rfl
@[simp] theorem State.withDense_cfgValid : s.withDense.cfgValid = s.cfgValid := rfl
@[simp] theorem State.withDense_crc : s.withDense.crc = s.crc := rfl
@[simp] theorem State.withDense_accValid : s.withDense.accValid = s.accValid := rfl
@[simp] theorem State.withDense_dense :
    s.withDense.dense = if s.denseCurrent then s.dense else s.denseTable := rfl
@[simp] theorem State.withDense_compact : s.withDense.compact = s.compact := rfl
@[simp] theorem State.withDense_fault : s.withDense.fault = s.fault := rfl
@[simp] theorem State.withDense_pending : s.withDense.pending = s.pending := rfl
@[simp] theorem State.withDense_resp : s.withDense.resp = s.resp := rfl

@[simp] theorem State.withCompact_cfg : s.withCompact.cfg = s.cfg := rfl
@[simp] theorem State.withCompact_cfgValid : s.withCompact.cfgValid = s.cfgValid := rfl
@[simp] theorem State.withCompact_crc : s.withCompact.crc = s.crc := rfl
@[simp] theorem State.withCompact_accValid : s.withCompact.accValid = s.accValid := rfl
@[simp] theorem State.withCompact_dense : s.withCompact.dense = s.dense := rfl
@[simp] theorem State.withCompact_compact :
    s.withCompact.compact = if s.compactCurrent then s.compact else s.compactTable := rfl
@[simp] theorem State.withCompact_fault : s.withCompact.fault = s.fault := rfl
@[simp] theorem State.withCompact_pending : s.withCompact.pending = s.pending := rfl
@[simp] theorem State.withCompact_resp : s.withCompact.resp = s.resp := rfl

@[simp] theorem State.runBytes_cfg (f : BitVec s.w → Byte → BitVec s.w) (bytes : List Byte) :
    (s.runBytes f bytes).cfg = s.cfg := rfl
@[simp] theorem State.runBytes_cfgValid (f : BitVec s.w → Byte → BitVec s.w) (bytes : List Byte) :
    (s.runBytes f bytes).cfgValid = s.cfgValid := rfl
@[simp] theorem State.runBytes_crc (f : BitVec s.w → Byte → BitVec s.w) (bytes : List Byte) :
    (s.runBytes f bytes).crc = toPort (updateReg f s.adaptIn s.crcVal bytes) := rfl
@[simp] theorem State.runBytes_accValid (f : BitVec s.w → Byte → BitVec s.w) (bytes : List Byte) :
    (s.runBytes f bytes).accValid = s.accValid := rfl
@[simp] theorem State.runBytes_dense (f : BitVec s.w → Byte → BitVec s.w) (bytes : List Byte) :
    (s.runBytes f bytes).dense = s.dense := rfl
@[simp] theorem State.runBytes_compact (f : BitVec s.w → Byte → BitVec s.w) (bytes : List Byte) :
    (s.runBytes f bytes).compact = s.compact := rfl
@[simp] theorem State.runBytes_fault (f : BitVec s.w → Byte → BitVec s.w) (bytes : List Byte) :
    (s.runBytes f bytes).fault = s.fault := rfl
@[simp] theorem State.runBytes_pending (f : BitVec s.w → Byte → BitVec s.w) (bytes : List Byte) :
    (s.runBytes f bytes).pending = s.pending := rfl
@[simp] theorem State.runBytes_resp (f : BitVec s.w → Byte → BitVec s.w) (bytes : List Byte) :
    (s.runBytes f bytes).resp = s.resp := rfl

@[simp] theorem State.configure_cfg (c : CfgRegs) : (s.configure c).cfg = c := rfl
@[simp] theorem State.configure_cfgValid (c : CfgRegs) : (s.configure c).cfgValid = true := rfl
@[simp] theorem State.configure_crc (c : CfgRegs) : (s.configure c).crc = s.crc := rfl
@[simp] theorem State.configure_accValid (c : CfgRegs) : (s.configure c).accValid = false := rfl
@[simp] theorem State.configure_dense (c : CfgRegs) : (s.configure c).dense = s.dense := rfl
@[simp] theorem State.configure_compact (c : CfgRegs) : (s.configure c).compact = s.compact := rfl
@[simp] theorem State.configure_fault (c : CfgRegs) : (s.configure c).fault = s.fault := rfl
@[simp] theorem State.configure_pending (c : CfgRegs) : (s.configure c).pending = s.pending := rfl
@[simp] theorem State.configure_resp (c : CfgRegs) : (s.configure c).resp = s.resp := rfl

@[simp] theorem State.freshAcc_cfg : s.freshAcc.cfg = s.cfg := rfl
@[simp] theorem State.freshAcc_cfgValid : s.freshAcc.cfgValid = s.cfgValid := rfl
@[simp] theorem State.freshAcc_crc : s.freshAcc.crc = toPort s.initVal := rfl
@[simp] theorem State.freshAcc_accValid : s.freshAcc.accValid = true := rfl
@[simp] theorem State.freshAcc_dense : s.freshAcc.dense = s.dense := rfl
@[simp] theorem State.freshAcc_compact : s.freshAcc.compact = s.compact := rfl
@[simp] theorem State.freshAcc_fault : s.freshAcc.fault = s.fault := rfl
@[simp] theorem State.freshAcc_pending : s.freshAcc.pending = s.pending := rfl
@[simp] theorem State.freshAcc_resp : s.freshAcc.resp = s.resp := rfl

@[simp] theorem State.answerFinal_cfg : s.answerFinal.cfg = s.cfg := rfl
@[simp] theorem State.answerFinal_cfgValid : s.answerFinal.cfgValid = s.cfgValid := rfl
@[simp] theorem State.answerFinal_crc : s.answerFinal.crc = s.crc := rfl
@[simp] theorem State.answerFinal_accValid : s.answerFinal.accValid = s.accValid := rfl
@[simp] theorem State.answerFinal_dense : s.answerFinal.dense = s.dense := rfl
@[simp] theorem State.answerFinal_compact : s.answerFinal.compact = s.compact := rfl
@[simp] theorem State.answerFinal_fault : s.answerFinal.fault = s.fault := rfl
@[simp] theorem State.answerFinal_pending : s.answerFinal.pending = s.pending := rfl
@[simp] theorem State.answerFinal_resp : s.answerFinal.resp = some ⟨0, toPort s.finalVal⟩ := rfl

@[simp] theorem State.bodyBit_cfg (bytes : List Byte) : (s.bodyBit bytes).cfg = s.cfg := rfl
@[simp] theorem State.bodyBit_cfgValid (bytes : List Byte) :
    (s.bodyBit bytes).cfgValid = s.cfgValid := rfl
@[simp] theorem State.bodyBit_crc (bytes : List Byte) :
    (s.bodyBit bytes).crc = toPort (updateReg (stepBit s.cfg.refReg s.polyVal) s.adaptIn s.crcVal bytes) := rfl
@[simp] theorem State.bodyBit_accValid (bytes : List Byte) :
    (s.bodyBit bytes).accValid = s.accValid := rfl
@[simp] theorem State.bodyBit_dense (bytes : List Byte) : (s.bodyBit bytes).dense = s.dense := rfl
@[simp] theorem State.bodyBit_compact (bytes : List Byte) :
    (s.bodyBit bytes).compact = s.compact := rfl
@[simp] theorem State.bodyBit_fault (bytes : List Byte) : (s.bodyBit bytes).fault = s.fault := rfl
@[simp] theorem State.bodyBit_pending (bytes : List Byte) :
    (s.bodyBit bytes).pending = s.pending := rfl
@[simp] theorem State.bodyBit_resp (bytes : List Byte) : (s.bodyBit bytes).resp = s.resp := rfl

@[simp] theorem State.bodyT256_cfg (bytes : List Byte) : (s.bodyT256 bytes).cfg = s.cfg := rfl
@[simp] theorem State.bodyT256_cfgValid (bytes : List Byte) :
    (s.bodyT256 bytes).cfgValid = s.cfgValid := rfl
@[simp] theorem State.bodyT256_crc (bytes : List Byte) :
    (s.bodyT256 bytes).crc = toPort (updateReg (stepTab s.cfg.refReg s.withDense.readDense) s.adaptIn s.crcVal bytes) := rfl
@[simp] theorem State.bodyT256_accValid (bytes : List Byte) :
    (s.bodyT256 bytes).accValid = s.accValid := rfl
@[simp] theorem State.bodyT256_dense (bytes : List Byte) :
    (s.bodyT256 bytes).dense = s.withDense.dense := rfl
@[simp] theorem State.bodyT256_compact (bytes : List Byte) :
    (s.bodyT256 bytes).compact = s.compact := rfl
@[simp] theorem State.bodyT256_fault (bytes : List Byte) : (s.bodyT256 bytes).fault = s.fault := rfl
@[simp] theorem State.bodyT256_pending (bytes : List Byte) :
    (s.bodyT256 bytes).pending = s.pending := rfl
@[simp] theorem State.bodyT256_resp (bytes : List Byte) : (s.bodyT256 bytes).resp = s.resp := rfl

@[simp] theorem State.bodyT16_cfg (bytes : List Byte) : (s.bodyT16 bytes).cfg = s.cfg := rfl
@[simp] theorem State.bodyT16_cfgValid (bytes : List Byte) :
    (s.bodyT16 bytes).cfgValid = s.cfgValid := rfl
@[simp] theorem State.bodyT16_crc (bytes : List Byte) :
    (s.bodyT16 bytes).crc = toPort (updateReg (stepTab s.cfg.refReg
      (compactEntry s.withCompact.readRow s.withCompact.readCol)) s.adaptIn s.crcVal bytes) := rfl
@[simp] theorem State.bodyT16_accValid (bytes : List Byte) :
    (s.bodyT16 bytes).accValid = s.accValid := rfl
@[simp] theorem State.bodyT16_dense (bytes : List Byte) : (s.bodyT16 bytes).dense = s.dense := rfl
@[simp] theorem State.bodyT16_compact (bytes : List Byte) :
    (s.bodyT16 bytes).compact = s.withCompact.compact := rfl
@[simp] theorem State.bodyT16_fault (bytes : List Byte) : (s.bodyT16 bytes).fault = s.fault := rfl
@[simp] theorem State.bodyT16_pending (bytes : List Byte) :
    (s.bodyT16 bytes).pending = s.pending := rfl
@[simp] theorem State.bodyT16_resp (bytes : List Byte) : (s.bodyT16 bytes).resp = s.resp := rfl

@[simp] theorem State.bodyX256_cfg (bytes : List Byte) (xt : ExtTable) :
    (s.bodyX256 bytes xt).cfg = s.cfg := rfl
@[simp] theorem State.bodyX256_cfgValid (bytes : List Byte) (xt : ExtTable) :
    (s.bodyX256 bytes xt).cfgValid = s.cfgValid := rfl
@[simp] theorem State.bodyX256_crc (bytes : List Byte) (xt : ExtTable) :
    (s.bodyX256 bytes xt).crc = toPort (updateReg (stepTab s.cfg.refReg (xtDense s.w xt)) s.adaptIn s.crcVal bytes) := rfl
@[simp] theorem State.bodyX256_accValid (bytes : List Byte) (xt : ExtTable) :
    (s.bodyX256 bytes xt).accValid = s.accValid := rfl
@[simp] theorem State.bodyX256_dense (bytes : List Byte) (xt : ExtTable) :
    (s.bodyX256 bytes xt).dense = s.dense := rfl
@[simp] theorem State.bodyX256_compact (bytes : List Byte) (xt : ExtTable) :
    (s.bodyX256 bytes xt).compact = s.compact := rfl
@[simp] theorem State.bodyX256_fault (bytes : List Byte) (xt : ExtTable) :
    (s.bodyX256 bytes xt).fault = s.fault := rfl
@[simp] theorem State.bodyX256_pending (bytes : List Byte) (xt : ExtTable) :
    (s.bodyX256 bytes xt).pending = s.pending := rfl
@[simp] theorem State.bodyX256_resp (bytes : List Byte) (xt : ExtTable) :
    (s.bodyX256 bytes xt).resp = s.resp := rfl

@[simp] theorem State.bodyX16_cfg (bytes : List Byte) (xt : ExtTable) :
    (s.bodyX16 bytes xt).cfg = s.cfg := rfl
@[simp] theorem State.bodyX16_cfgValid (bytes : List Byte) (xt : ExtTable) :
    (s.bodyX16 bytes xt).cfgValid = s.cfgValid := rfl
@[simp] theorem State.bodyX16_crc (bytes : List Byte) (xt : ExtTable) :
    (s.bodyX16 bytes xt).crc = toPort (updateReg (stepTab s.cfg.refReg
      (compactEntry (xtRow s.w xt) (xtCol s.w xt))) s.adaptIn s.crcVal bytes) := rfl
@[simp] theorem State.bodyX16_accValid (bytes : List Byte) (xt : ExtTable) :
    (s.bodyX16 bytes xt).accValid = s.accValid := rfl
@[simp] theorem State.bodyX16_dense (bytes : List Byte) (xt : ExtTable) :
    (s.bodyX16 bytes xt).dense = s.dense := rfl
@[simp] theorem State.bodyX16_compact (bytes : List Byte) (xt : ExtTable) :
    (s.bodyX16 bytes xt).compact = s.compact := rfl
@[simp] theorem State.bodyX16_fault (bytes : List Byte) (xt : ExtTable) :
    (s.bodyX16 bytes xt).fault = s.fault := rfl
@[simp] theorem State.bodyX16_pending (bytes : List Byte) (xt : ExtTable) :
    (s.bodyX16 bytes xt).pending = s.pending := rfl
@[simp] theorem State.bodyX16_resp (bytes : List Byte) (xt : ExtTable) :
    (s.bodyX16 bytes xt).resp = s.resp := rfl

end Sys2Proof.Machine
end

