-- ==== Sys2Proof/Laws/Ops.lean ====
section
/-!
SUPPORT. What each shared operation can do, said once: the checks that raise a violation, the two table
stores and their generation, decoding and the host's events.
-/

namespace Sys2Proof.Machine

/-! ### Checks -/

theorem State.requireCfg_cases (s : State) (k : Result) :
    (s.cfgValid = true ∧ s.requireCfg k = k) ∨
    (s.cfgValid = false ∧ s.requireCfg k = .next (s.violate .notConfigured)) := by
  cases h : s.cfgValid <;> simp [State.requireCfg, State.raise, h]

theorem State.requireAcc_cases (s : State) (k : Result) :
    (s.accValid = true ∧ s.requireAcc k = k) ∨
    (s.accValid = false ∧ s.requireAcc k = .next (s.violate .accNotLoaded)) := by
  cases h : s.accValid <;> simp [State.requireAcc, State.raise, h]

theorem State.requireFits_cases (s : State) (n : Nat) (a : Port) (k : Result) :
    (a.toNat < 2 ^ n ∧ s.requireFits n a k = k) ∨
    (2 ^ n ≤ a.toNat ∧ s.requireFits n a k = .next (s.violate .operandRange)) := by
  cases h : fits n a
  · exact .inr ⟨(fits_eq_false_iff n a).1 h, by simp [State.requireFits, State.raise, h]⟩
  · exact .inl ⟨(fits_iff n a).1 h, by simp [State.requireFits, h]⟩

theorem State.requireNibble_cases (s : State) (idx : Byte) (k : Result) :
    (idx.toNat < 16 ∧ s.requireNibble idx k = k) ∨
    (15 < idx.toNat ∧ s.requireNibble idx k = .next (s.violate .operandRange)) := by
  by_cases h : idx.toNat < 16
  · exact .inl ⟨h, by simp [State.requireNibble, nibbleIndex, h]⟩
  · exact .inr ⟨by omega, by simp [State.requireNibble, State.raise, nibbleIndex, h]⟩

theorem State.requireXt_cases (s : State) (xt : ExtTable) (k : Result) :
    (xt.wc = s.cfg.wc ∧ s.requireXt xt k = k) ∨
    (xt.wc ≠ s.cfg.wc ∧ s.requireXt xt k = .next (s.violate .extTableWidth)) := by
  by_cases h : xt.wc = s.cfg.wc <;> simp [State.requireXt, State.raise, h]

/-! ### Table stores -/

@[simp] theorem State.denseTable_valid (s : State) : s.denseTable.valid = true := rfl

@[simp] theorem State.denseTable_tag (s : State) : s.denseTable.tag = s.key := rfl

@[simp] theorem State.compactTable_valid (s : State) : s.compactTable.valid = true := rfl

@[simp] theorem State.compactTable_tag (s : State) : s.compactTable.tag = s.key := rfl

@[simp] theorem State.key_wc (s : State) : s.key.wc = s.cfg.wc := rfl

@[simp] theorem State.key_refReg (s : State) : s.key.refReg = s.cfg.refReg := rfl

@[simp] theorem State.key_poly (s : State) : s.key.poly = toPort s.polyVal := rfl

theorem State.denseTable_wf (s : State) : s.denseTable.Wf := by
  intro _
  refine ⟨fits_toPort _, fun i => ?_⟩
  simp [State.denseTable, State.key]

theorem State.compactTable_wf (s : State) : s.compactTable.Wf := by
  intro _
  refine ⟨fits_toPort _, fun i => ⟨?_, ?_⟩⟩ <;> simp [State.compactTable, State.key]

/-- First-use generation keeps the invariant of the dense store (R30). -/
theorem State.withDense_wf {s : State} (h : s.dense.Wf) : s.withDense.dense.Wf := by
  rw [State.withDense_dense]
  split
  · exact h
  · exact s.denseTable_wf

/-- First-use generation keeps the invariant of the compact store (R31). -/
theorem State.withCompact_wf {s : State} (h : s.compact.Wf) : s.withCompact.compact.Wf := by
  rw [State.withCompact_compact]
  split
  · exact h
  · exact s.compactTable_wf

theorem DenseStore.reset_wf : DenseStore.reset.Wf := by
  intro h; cases h

theorem CompactStore.reset_wf : CompactStore.reset.Wf := by
  intro h; cases h

theorem State.denseCurrent_iff (s : State) :
    s.denseCurrent = true ↔ s.dense.valid = true ∧ s.dense.tag = s.key := by
  simp [State.denseCurrent]

theorem State.compactCurrent_iff (s : State) :
    s.compactCurrent = true ↔ s.compact.valid = true ∧ s.compact.tag = s.key := by
  simp [State.compactCurrent]

/-- A read of a dense store tagged with the present key gives the entry of that key
(`20_memory.md` R41). -/
theorem State.readDense_of_wf {s : State} (hv : s.dense.valid = true) (ht : s.dense.tag = s.key)
    (h : s.dense.Wf) (i : Byte) :
    s.readDense i = tableEntry s.cfg.refReg s.polyVal i := by
  have hi := (h hv).2 ⟨i.toNat, i.isLt⟩
  rw [ht] at hi
  simpa [State.readDense] using congrArg (ofPort s.w) hi

/-- After first-use generation a read of `DENSE` gives the entry of the present key
(`42_table_generator.md` R99). -/
theorem State.readDense_withDense {s : State} (h : s.dense.Wf) (i : Byte) :
    s.withDense.readDense i = tableEntry s.cfg.refReg s.polyVal i := by
  refine State.readDense_of_wf (s := s.withDense) ?_ ?_ (State.withDense_wf h) i
  · rw [State.withDense_dense]
    split
    · next hc => exact ((s.denseCurrent_iff).1 hc).1
    · rfl
  · rw [State.withDense_dense]
    split
    · next hc => exact ((s.denseCurrent_iff).1 hc).2
    · rfl

/-- A read of a compact store tagged with the present key (`20_memory.md` R42). -/
theorem State.readCompact_of_wf {s : State} (hv : s.compact.valid = true)
    (ht : s.compact.tag = s.key) (h : s.compact.Wf) (i : BitVec 4) :
    s.readRow i = tableEntry s.cfg.refReg s.polyVal (BitVec.ofNat 8 i.toNat) ∧
    s.readCol i = tableEntry s.cfg.refReg s.polyVal (BitVec.ofNat 8 (16 * i.toNat)) := by
  have hi := (h hv).2 ⟨i.toNat, i.isLt⟩
  rw [ht] at hi
  exact ⟨by simpa [State.readRow] using congrArg (ofPort s.w) hi.1,
    by simpa [State.readCol] using congrArg (ofPort s.w) hi.2⟩

/-- After first-use generation the reads of `ROW` and `COL` give the entries of the present key
(`42_table_generator.md` R99). -/
theorem State.readCompact_withCompact {s : State} (h : s.compact.Wf) (i : BitVec 4) :
    s.withCompact.readRow i = tableEntry s.cfg.refReg s.polyVal (BitVec.ofNat 8 i.toNat) ∧
    s.withCompact.readCol i =
      tableEntry s.cfg.refReg s.polyVal (BitVec.ofNat 8 (16 * i.toNat)) := by
  refine State.readCompact_of_wf (s := s.withCompact) ?_ ?_ (State.withCompact_wf h) i
  · rw [State.withCompact_compact]
    split
    · next hc => exact ((s.compactCurrent_iff).1 hc).1
    · rfl
  · rw [State.withCompact_compact]
    split
    · next hc => exact ((s.compactCurrent_iff).1 hc).2
    · rfl

/-! ### The configuration -/

/-- CFG.SET leaves consistent configuration registers (`10_state.md` R23). -/
theorem resolve_wf (poly init xorout : Port) (f : BitVec 6) :
    (resolve poly init xorout f).Wf := by
  refine ⟨fits_toPort _, fits_toPort _, fits_toPort _, ?_, ?_⟩ <;> simp [resolve]

/-! ### Responses -/

theorem State.respond_responseWf (s : State) (v : Port) :
    responseWf (s.respond v).resp (s.respond v).fault = true := by
  simp [responseWf]

theorem State.violate_responseWf (s : State) (v : Violation) :
    responseWf (s.violate v).resp (s.violate v).fault = true := by
  cases v <;> simp [responseWf, statusCode]

/-! ### The host's events -/

theorem advance_cases (s : State) :
    (s.pending = [] ∧ advance s = .next s) ∨
    (∃ rest, s.pending = .reset :: rest ∧ advance s = .next (afterReset rest)) ∨
    (∃ r rest, s.pending = .command r :: rest ∧
      advance s = serve r { s with pending := rest }) := by
  match h : s.pending with
  | [] => exact .inl ⟨rfl, by simp [advance, fetch, h]⟩
  | .reset :: rest => exact .inr (.inl ⟨rest, rfl, by simp [advance, fetch, h]⟩)
  | .command r :: rest => exact .inr (.inr ⟨r, rest, rfl, by simp [advance, fetch, h]⟩)

theorem serve_cases (r : Request) (s : State) :
    (∃ i, decode r = .ok i ∧ serve r s = exec i s) ∨
    (∃ e, decode r = .error e ∧ serve r s = .next (s.violate .illegalCommand)) := by
  cases h : decode r with
  | ok i => exact .inl ⟨i, rfl, by simp [serve, h]⟩
  | error e => exact .inr ⟨e, rfl, by simp [serve, h, State.raise]⟩

end Sys2Proof.Machine
end

