-- ==== Sys2Proof/Laws/PerInstr.lean ====
section
/-!
SUPPORT. The family `EncodeThenDecode`: one lemma per constructor of `Instr`, that the words written from
the fields of `30_encoding.md` R61 are read by the code column of R64 as the command they stand for.
-/

namespace Sys2Proof.Laws

/-- Decoding the request that encodes a command gives the command back. -/
def EncodeThenDecode.Statement (i : Instr) : Prop := decode (encode i) = .ok i

theorem EncodeThenDecode.revB (a : Port) : EncodeThenDecode.Statement (.revB a) := rfl

theorem EncodeThenDecode.revH (a : Port) : EncodeThenDecode.Statement (.revH a) := rfl

theorem EncodeThenDecode.revW (a : Port) : EncodeThenDecode.Statement (.revW a) := rfl

theorem EncodeThenDecode.revD (a : Port) : EncodeThenDecode.Statement (.revD a) := rfl

theorem EncodeThenDecode.cfgSet (a : Port) (b : Port) (c : Port) (d : BitVec 6) : EncodeThenDecode.Statement (.cfgSet a b c d) := rfl

theorem EncodeThenDecode.genT256 : EncodeThenDecode.Statement (.genT256) := rfl

theorem EncodeThenDecode.genT16 : EncodeThenDecode.Statement (.genT16) := rfl

theorem EncodeThenDecode.accInit : EncodeThenDecode.Statement (.accInit) := rfl

theorem EncodeThenDecode.accLoad (a : Port) : EncodeThenDecode.Statement (.accLoad a) := rfl

theorem EncodeThenDecode.updBit (a : List Byte) : EncodeThenDecode.Statement (.updBit a) := rfl

theorem EncodeThenDecode.updT256 (a : List Byte) : EncodeThenDecode.Statement (.updT256 a) := rfl

theorem EncodeThenDecode.updT16 (a : List Byte) : EncodeThenDecode.Statement (.updT16 a) := rfl

theorem EncodeThenDecode.updX256 (a : List Byte) (b : ExtTable) : EncodeThenDecode.Statement (.updX256 a b) := rfl

theorem EncodeThenDecode.updX16 (a : List Byte) (b : ExtTable) : EncodeThenDecode.Statement (.updX16 a b) := rfl

theorem EncodeThenDecode.rdInterim : EncodeThenDecode.Statement (.rdInterim) := rfl

theorem EncodeThenDecode.rdResidue : EncodeThenDecode.Statement (.rdResidue) := rfl

theorem EncodeThenDecode.rdFinal : EncodeThenDecode.Statement (.rdFinal) := rfl

theorem EncodeThenDecode.rdT256 (a : Byte) : EncodeThenDecode.Statement (.rdT256 a) := rfl

theorem EncodeThenDecode.rdRow (a : Byte) : EncodeThenDecode.Statement (.rdRow a) := rfl

theorem EncodeThenDecode.rdCol (a : Byte) : EncodeThenDecode.Statement (.rdCol a) := rfl

theorem EncodeThenDecode.calcBit (a : List Byte) : EncodeThenDecode.Statement (.calcBit a) := rfl

theorem EncodeThenDecode.calcT256 (a : List Byte) : EncodeThenDecode.Statement (.calcT256 a) := rfl

theorem EncodeThenDecode.calcT16 (a : List Byte) : EncodeThenDecode.Statement (.calcT16 a) := rfl

theorem EncodeThenDecode.calcX256 (a : List Byte) (b : ExtTable) : EncodeThenDecode.Statement (.calcX256 a b) := rfl

theorem EncodeThenDecode.calcX16 (a : List Byte) (b : ExtTable) : EncodeThenDecode.Statement (.calcX16 a b) := rfl

theorem EncodeThenDecode.resc : EncodeThenDecode.Statement (.resc) := rfl

end Sys2Proof.Laws
end

