-- ==== Sys2Proof/Tests/Slice0.lean ====
section
/-!
SUPPORT. The model's own tests. Expected values come from the spec: the encoding table of
`30_encoding.md` R64, the worked examples of the command rules, and the vectors of
`95_test_vectors.md` (the section is named at each test).
-/

namespace Sys2Proof.Tests

open Sys2Proof.Machine

/-! ### Helpers -/

/-- What a command answers. -/
def responseOf : Result → Option Response
  | .next t => t.resp
  | .fault _ => none
  | .refused _ => none

/-- The next state, or the reset state for a result that is none. -/
def stateOf : Result → State
  | .next t => t
  | .fault _ => State.reset
  | .refused _ => State.reset

/-- A configured state: reset, then CFG.SET's writes. -/
def configured (poly init xorout : Port) (f : BitVec 6) : State :=
  State.reset.configure (resolve poly init xorout f)

/-- The configurations of `95_test_vectors.md` section 2.0. -/
def x16 : State := configured 0x1021 0 0 0x01
def x16rr1 : State := configured 0x1021 0 0 0x31
def c32 : State := configured 0x04C11DB7 0xFFFFFFFF 0xFFFFFFFF 0x0E
def c32rr0 : State := configured 0x04C11DB7 0xFFFFFFFF 0xFFFFFFFF 0x1E
def a8 : State := configured 0x2F 0xFF 0xFF 0x00
def z64 : State := configured 0x42F0E1EBA9EA3693 0xFFFFFFFFFFFFFFFF 0xFFFFFFFFFFFFFFFF 0x0F
def m16a : State := configured 0x1021 0xFFFF 0x1234 0x09

/-- A configured state with a loaded accumulator. -/
def loaded (s : State) (crc : Port) : State := { s with crc := crc, accValid := true }

/-- The external table whose entries are those of a state's present key. -/
def tableOf (s : State) : ExtTable :=
  ⟨s.cfg.wc, s.denseTable.entries, s.compactTable.row, s.compactTable.col⟩

/-- The ASCII bytes of "123456789" (`30_encoding.md` R70). -/
def checkString : List Byte := [0x31, 0x32, 0x33, 0x34, 0x35, 0x36, 0x37, 0x38, 0x39]

/-- The status of a response, 7 for none (7 is never returned, R173). -/
def statusOf (r : Result) : BitVec 3 := ((responseOf r).map Response.status).getD 7

/-! ### Well-formedness -/

/-- Each of the ten commands with a byte range, given three bytes, is ill-formed under a bound of 2
and well-formed under a bound of 3. -/
theorem test_wellFormed_refuses_long_range :
    ([.updBit [1, 2, 3], .updT256 [1, 2, 3], .updT16 [1, 2, 3], .updX256 [1, 2, 3] .zero,
      .updX16 [1, 2, 3] .zero, .calcBit [1, 2, 3], .calcT256 [1, 2, 3], .calcT16 [1, 2, 3],
      .calcX256 [1, 2, 3] .zero, .calcX16 [1, 2, 3] .zero] : List Instr).all
      (fun i => !i.fitsLength (some 2) && i.fitsLength (some 3) && i.fitsLength none) = true := by
  decide

/-! ### Decoding: words written out bit by bit from R61, `z grp y sel` -/

/-- Operand slots with a different value in every slot. -/
def someSlots : Slots := ⟨0xA1, 0xB2, 0xC3, 0x2A, 0x1D, [0x53], ⟨2, .replicate 256 1, .replicate 16 2, .replicate 16 3⟩⟩

theorem test_decode_rev :
    decode ⟨0b00000000, someSlots⟩ = .ok (.revB 0xA1) ∧
    decode ⟨0b00000001, someSlots⟩ = .ok (.revH 0xA1) ∧
    decode ⟨0b00000010, someSlots⟩ = .ok (.revW 0xA1) ∧
    decode ⟨0b00000011, someSlots⟩ = .ok (.revD 0xA1) := ⟨rfl, rfl, rfl, rfl⟩

theorem test_decode_cfg :
    decode ⟨0b00010000, someSlots⟩ = .ok (.cfgSet 0xA1 0xB2 0xC3 0x2A) := rfl

theorem test_decode_gen :
    decode ⟨0b00100000, someSlots⟩ = .ok .genT256 ∧
    decode ⟨0b00100001, someSlots⟩ = .ok .genT16 := ⟨rfl, rfl⟩

theorem test_decode_acc :
    decode ⟨0b00110000, someSlots⟩ = .ok .accInit ∧
    decode ⟨0b00110001, someSlots⟩ = .ok (.accLoad 0xA1) := ⟨rfl, rfl⟩

theorem test_decode_upd :
    decode ⟨0b01000000, someSlots⟩ = .ok (.updBit [0x53]) ∧
    decode ⟨0b01000001, someSlots⟩ = .ok (.updT256 [0x53]) ∧
    decode ⟨0b01000010, someSlots⟩ = .ok (.updT16 [0x53]) ∧
    decode ⟨0b01000011, someSlots⟩ = .ok (.updX256 [0x53] someSlots.xt) ∧
    decode ⟨0b01000100, someSlots⟩ = .ok (.updX16 [0x53] someSlots.xt) := ⟨rfl, rfl, rfl, rfl, rfl⟩

theorem test_decode_rd :
    decode ⟨0b01010000, someSlots⟩ = .ok .rdInterim ∧
    decode ⟨0b01010001, someSlots⟩ = .ok .rdResidue ∧
    decode ⟨0b01010010, someSlots⟩ = .ok .rdFinal ∧
    decode ⟨0b01010011, someSlots⟩ = .ok (.rdT256 0x1D) ∧
    decode ⟨0b01010100, someSlots⟩ = .ok (.rdRow 0x1D) ∧
    decode ⟨0b01010101, someSlots⟩ = .ok (.rdCol 0x1D) := ⟨rfl, rfl, rfl, rfl, rfl, rfl⟩

theorem test_decode_calc :
    decode ⟨0b01100000, someSlots⟩ = .ok (.calcBit [0x53]) ∧
    decode ⟨0b01100001, someSlots⟩ = .ok (.calcT256 [0x53]) ∧
    decode ⟨0b01100010, someSlots⟩ = .ok (.calcT16 [0x53]) ∧
    decode ⟨0b01100011, someSlots⟩ = .ok (.calcX256 [0x53] someSlots.xt) ∧
    decode ⟨0b01100100, someSlots⟩ = .ok (.calcX16 [0x53] someSlots.xt) := ⟨rfl, rfl, rfl, rfl, rfl⟩

theorem test_decode_resc : decode ⟨0b01110000, someSlots⟩ = .ok .resc := rfl

/-- Reserved words of each kind (`95_test_vectors.md` section 2.6), each refused under its name. -/
theorem test_decode_reserved :
    decode ⟨0x80, someSlots⟩ = .error .bitZ ∧ decode ⟨0xFF, someSlots⟩ = .error .bitZ ∧
    decode ⟨0x08, someSlots⟩ = .error .bitY ∧ decode ⟨0x04, someSlots⟩ = .error (.selector 0 4) ∧
    decode ⟨0x11, someSlots⟩ = .error (.selector 1 1) ∧
    decode ⟨0x71, someSlots⟩ = .error (.selector 7 1) := ⟨rfl, rfl, rfl, rfl, rfl, rfl⟩

/-! ### REV (section 2.1) -/

theorem test_revB : responseOf (exec (.revB 0x31) .reset) = some ⟨0, 0x8C⟩ := by decide +kernel

theorem test_revB_range : exec (.revB 0x100) .reset = .next (State.reset.violate .operandRange) := by
  rfl

theorem test_revH : responseOf (exec (.revH 0x00FF) .reset) = some ⟨0, 0xFF00⟩ := by decide +kernel

theorem test_revW : responseOf (exec (.revW 0x12345678) .reset) = some ⟨0, 0x1E6A2C48⟩ := by
  decide +kernel

theorem test_revD :
    responseOf (exec (.revD 0x0123456789ABCDEF) .reset) = some ⟨0, 0xF7B3D591E6A2C480⟩ := by
  decide +kernel

/-! ### CFG.SET (section 2.5) -/

theorem test_cfgSet :
    (stateOf (exec (.cfgSet 0x1021 0x1D0F 0 0x31) .reset)).cfg =
      ⟨1, 0x1021, 0x1D0F, 0, false, false, true, 0x8408, 0xF0B8⟩ := by decide +kernel

theorem test_cfgSet_default_refReg :
    (stateOf (exec (.cfgSet 0x04C11DB7 0xFFFFFFFF 0xFFFFFFFF 0x2E) .reset)).cfg =
      ⟨2, 0x04C11DB7, 0xFFFFFFFF, 0xFFFFFFFF, true, true, true, 0xEDB88320, 0xFFFFFFFF⟩ := by
  decide +kernel

/-! ### GEN (section 2.2) -/

theorem test_genT256 :
    (stateOf (exec .genT256 c32)).dense.entries[0xCE] = 0x7CDCEFB7 ∧
    (stateOf (exec .genT256 x16)).dense.entries[0xFF] = 0x1EF0 := by decide +kernel

theorem test_genT16 :
    (stateOf (exec .genT16 x16rr1)).compact.row =
      #v[0x0000, 0x1189, 0x2312, 0x329B, 0x4624, 0x57AD, 0x6536, 0x74BF,
         0x8C48, 0x9DC1, 0xAF5A, 0xBED3, 0xCA6C, 0xDBE5, 0xE97E, 0xF8F7] ∧
    (stateOf (exec .genT16 a8)).compact.col =
      #v[0x00, 0xAE, 0x73, 0xDD, 0xE6, 0x48, 0x95, 0x3B, 0xE3, 0x4D, 0x90, 0x3E, 0x05, 0xAB, 0x76,
         0xD8] := by decide +kernel

/-! ### ACC (section 2.5) -/

theorem test_accInit :
    (stateOf (exec .accInit (configured 0x1021 0x1D0F 0 0x31))).crc = 0xF0B8 := by decide +kernel

theorem test_accLoad :
    (stateOf (exec (.accLoad 0x2672) x16)).crc = 0x2672 ∧
    statusOf (exec (.accLoad 0x10000) x16) = 3 := by decide +kernel

/-! ### UPD (section 2.3) -/

theorem test_updBit :
    (stateOf (exec (.updBit [0x31]) (loaded c32rr0 0xFFFFFFFF))).crc = 0x1208C43E := by
  decide +kernel

theorem test_updBit_check_string :
    (stateOf (exec (.updBit checkString) (loaded z64 0xFFFFFFFFFFFFFFFF))).crc
      = 0x66A2364420E6C605 := by decide +kernel

theorem test_updT256 :
    (stateOf (exec (.updT256 [0x31]) (loaded c32 0xFFFFFFFF))).crc = 0x7C231048 ∧
    (stateOf (exec (.updT256 [0x31]) (loaded c32 0xFFFFFFFF))).dense.valid = true := by
  decide +kernel

theorem test_updT16 : (stateOf (exec (.updT16 [0x31, 0x32]) (loaded a8 0xFF))).crc = 0xBD := by
  decide +kernel

/-- Right width, wrong convention: not detected (section 2.3). -/
theorem test_updX256 :
    (stateOf (exec (.updX256 [0x31] (tableOf c32)) (loaded c32 0xFFFFFFFF))).crc = 0x7C231048 ∧
    (stateOf (exec (.updX256 [0x31] (tableOf c32rr0)) (loaded c32 0xFFFFFFFF))).crc = 0x61FBCF6C := by
  decide +kernel

theorem test_updX16 :
    (stateOf (exec (.updX16 [0x31] (tableOf x16)) (loaded x16 0))).crc = 0x2672 ∧
    statusOf (exec (.updX16 [] (tableOf c32)) (loaded x16 0)) = 5 := by decide +kernel

/-! ### RD (section 2.5) -/

theorem test_rdInterim :
    responseOf (exec .rdInterim (loaded c32rr0 0x9B63D02C)) = some ⟨0, 0x9B63D02C⟩ := by
  decide +kernel

theorem test_rdResidue :
    responseOf (exec .rdResidue (loaded c32rr0 0x9B63D02C)) = some ⟨0, 0x340BC6D9⟩ := by
  decide +kernel

/-- The codeword of a configuration with `REF_IN != REF_OUT` (`44_residue.md` R140). -/
theorem test_rdResidue_mixed_flags :
    responseOf (exec .rdResidue (stateOf (exec (.updBit (checkString ++ [0x9F, 0xA0]))
      (loaded m16a 0xFFFF)))) = some ⟨0, 0xDD6D⟩ := by
  decide +kernel

theorem test_rdFinal :
    responseOf (exec .rdFinal (loaded c32rr0 0x9B63D02C)) = some ⟨0, 0xCBF43926⟩ := by
  decide +kernel

theorem test_rdT256 : responseOf (exec (.rdT256 0xFF) z64) = some ⟨0, 0xE0ADA17364673F59⟩ := by
  decide +kernel

theorem test_rdRow :
    responseOf (exec (.rdRow 1) c32) = some ⟨0, 0x77073096⟩ ∧ statusOf (exec (.rdRow 16) c32) = 3 := by
  decide +kernel

theorem test_rdCol :
    responseOf (exec (.rdCol 3) x16) = some ⟨0, 0x3653⟩ ∧ statusOf (exec (.rdCol 255) x16) = 3 := by
  decide +kernel

/-! ### CALC (sections 1.1 and 4) -/

theorem test_calcBit :
    responseOf (exec (.calcBit checkString) c32rr0) = some ⟨0, 0xCBF43926⟩ ∧
    responseOf (exec (.calcBit checkString) m16a) = some ⟨0, 0x9FA0⟩ := by decide +kernel

theorem test_calcT256 :
    responseOf (exec (.calcT256 checkString) c32) = some ⟨0, 0xCBF43926⟩ := by decide +kernel

theorem test_calcT16 : responseOf (exec (.calcT16 checkString) a8) = some ⟨0, 0xDF⟩ := by
  decide +kernel

theorem test_calcX256 :
    responseOf (exec (.calcX256 checkString (tableOf z64)) z64) = some ⟨0, 0x995DC9BBDF1939FA⟩ := by
  decide +kernel

theorem test_calcX16 :
    responseOf (exec (.calcX16 checkString (tableOf x16)) x16) = some ⟨0, 0x31C3⟩ := by decide +kernel

/-! ### RESC (section 2.4) -/

theorem test_resc : responseOf (exec .resc c32rr0) = some ⟨0, 0xDEBB20E3⟩ := by decide +kernel

/-- `REF_IN != REF_OUT`: RESC as the formula gives it (`44_residue.md` R140). -/
theorem test_resc_mixed_flags : responseOf (exec .resc m16a) = some ⟨0, 0x8A47⟩ := by
  decide +kernel

/-! ### Violations and steps (section 2.6) -/

/-- NotConfigured comes before OperandRange, AccNotLoaded before ExtTableWidth (R179). -/
theorem test_priority :
    statusOf (exec (.rdRow 99) .reset) = 2 ∧
    statusOf (exec (.updX256 [0x31] .zero) x16) = 4 ∧
    statusOf (exec (.calcX256 [0x31] .zero) x16) = 5 := by decide +kernel

theorem test_reserved_word :
    step (State.reset.withFetchWord 8 0x08) = .next (State.reset.violate .illegalCommand) := rfl

theorem test_step_issues_word :
    step (State.reset.withFetchWord 8 0x52) = .next (State.reset.violate .notConfigured) := rfl

/-! ### Witnesses: for each statement with hypotheses, values that meet them together

A clause with a range of its own has a witness at the boundary of that range. -/

/-- The CRC-16 configuration with a loaded accumulator. -/
def x16acc : State := loaded x16 0x31C3

/-- The same with both table stores current. -/
def x16tables : State := x16acc.genDense.genCompact

/-- The same with a valid dense store of another key. -/
def x16stale : State := { x16acc with dense := a8.denseTable, compact := a8.compactTable }

/-- The CRC-32 configuration, reflected, with a loaded accumulator. -/
def c32acc : State := loaded c32 0xDEBB20E3

/-- A state that differs from reset in guarded elements only. -/
def dirtyReset : State := { State.reset with cfg := c32.cfg, crc := 5, dense := ⟨false, a8.key, .replicate 256 7⟩ }

theorem tableOf_matches (k : Strategy) (s : State) : k.Matches s (tableOf s) := by
  cases k
  case x256 => exact ⟨rfl, fun i => by simp [xtDense, tableOf, State.denseTable]⟩
  case x16 =>
    refine ⟨rfl, fun i => ⟨?_, ?_⟩⟩
    · have h : BitVec.ofNat 8 i.toNat = i.setWidth 8 := by revert i; decide
      simp [xtRow, tableOf, State.compactTable, h]
    · have h : BitVec.ofNat 8 (16 * i.toNat) = i.setWidth 8 <<< 4 := by revert i; decide
      simp [xtCol, tableOf, State.compactTable, h]
  all_goals trivial

theorem x16acc_inv : State.Inv x16acc :=
  ⟨by decide +kernel, fun _ => rfl, by decide +kernel, DenseStore.reset_wf, CompactStore.reset_wf, rfl⟩

theorem c32acc_inv : State.Inv c32acc :=
  ⟨by decide +kernel, fun _ => rfl, by decide +kernel, DenseStore.reset_wf, CompactStore.reset_wf, rfl⟩

theorem x16tables_inv : State.Inv x16tables :=
  ⟨by decide +kernel, fun _ => rfl, by decide +kernel, State.denseTable_wf _, State.compactTable_wf _,
    rfl⟩

theorem x16stale_inv : State.Inv x16stale :=
  ⟨by decide +kernel, fun _ => rfl, by decide +kernel, State.denseTable_wf _, State.compactTable_wf _,
    rfl⟩

theorem witness_ResetEventStartsAfresh :
    State.pending { x16acc with pending := [.reset] } = [.reset] ∧
    State.pending { c32 with pending := [.reset] } = [.reset] ∧
    needsConfiguration .resc = true := ⟨rfl, rfl, rfl⟩

theorem witness_ResetContentsNeverMatter :
    dirtyReset ≠ State.reset ∧ dirtyReset.cfgValid = false ∧ dirtyReset.accValid = false ∧
    dirtyReset.dense.valid = false ∧ dirtyReset.compact.valid = false ∧ dirtyReset.fault = false ∧
    dirtyReset.resp = State.reset.resp := by
  exact ⟨fun h => absurd (congrArg State.crc h) (by decide), rfl, rfl, rfl, rfl, rfl, rfl⟩

theorem witness_GuardedElementsAreUnobservable : State.SameGuarded dirtyReset State.reset :=
  ⟨rfl, nofun, rfl, nofun, rfl, nofun, rfl, nofun, rfl, rfl, rfl⟩

theorem witness_StepKeepsInvariant :
    State.Inv { x16acc with pending := [.command (encode .rdFinal)] } ∧
    step { x16acc with pending := [.command (encode .rdFinal)] } =
      .next (x16acc.respond (toPort x16acc.finalVal)) :=
  ⟨⟨x16acc_inv.cfg, x16acc_inv.accConfigured, x16acc_inv.acc, x16acc_inv.dense, x16acc_inv.compact, rfl⟩,
    rfl⟩

theorem witness_NothingPendingNothingHappens : State.reset.pending = [] := rfl

theorem witness_StepRunsDecodedCommand :
    State.pending { x16acc with pending := [.command (encode .genT16)] } =
      [.command (encode .genT16)] ∧
    decode (encode .genT16) = .ok .genT16 := ⟨rfl, rfl⟩

/-- Both clauses, at the reserved words on either side of each group's last command. -/
theorem witness_ReservedWordsAreIllegalCommands :
    ([0x04, 0x08, 0x11, 0x22, 0x32, 0x45, 0x56, 0x65, 0x71, 0x80, 0xFF] : List Byte).all
      reservedWord = true ∧
    ([0x00, 0x03, 0x10, 0x21, 0x31, 0x44, 0x55, 0x64, 0x70] : List Byte).all
      (fun c => !reservedWord c) = true := by decide

/-- A request with something in every slot, and one that differs in a slot REV.B does not list. -/
theorem witness_DecodeAndEncodeAgree_UnlistedSlotsAreIgnored :
    decode ⟨0x00, someSlots⟩ = .ok (.revB 0xA1) ∧
    listedSlots (.revB 0xA1) someSlots = listedSlots (.revB 0xA1) { someSlots with b := 9, s := [] } ∧
    someSlots.b ≠ 9 := ⟨rfl, rfl, by decide⟩

theorem witness_RevCommandsReverse :
    (0xFF#64).toNat < 2 ^ 8 ∧ 2 ^ 8 ≤ (0x100#64).toNat ∧
    (0xFFFF#64).toNat < 2 ^ 16 ∧ 2 ^ 16 ≤ (0x10000#64).toNat ∧
    (0xFFFFFFFF#64).toNat < 2 ^ 32 ∧ 2 ^ 32 ≤ (0x100000000#64).toNat := by decide

theorem witness_ReversalLaws : 0 < 8 ∧ 7 < 8 := by decide

/-- The last value that fits width 8 in every operand, and the first that does not in each one. -/
theorem witness_CfgSetInstallsConfiguration :
    operandTooWide (.cfgSet 0xFF 0xFF 0xFF 0) .reset = false ∧
    2 ^ 8 ≤ (0x100#64).toNat ∧ operandTooWide (.cfgSet 0x100 0 0 0) .reset = true ∧
    operandTooWide (.cfgSet 0 0x100 0 0) .reset = true ∧
    operandTooWide (.cfgSet 0 0 0x100 0) .reset = true ∧
    operandTooWide (.cfgSet 0xFFFFFFFFFFFFFFFF 0 0 3) .reset = false := by decide

/-- A CFG.SET that changes only INIT keeps both tables current; one that changes the polynomial does
not. -/
theorem witness_CfgSetKeepsTableStores :
    operandTooWide (.cfgSet 0x1021 0xFFFF 0 1) x16tables = false ∧
    (stateOf (exec (.cfgSet 0x1021 0xFFFF 0 1) x16tables)).denseCurrent = true ∧
    (stateOf (exec (.cfgSet 0x1021 0xFFFF 0 1) x16tables)).compactCurrent = true ∧
    (stateOf (exec (.cfgSet 0x8005 0xFFFF 0 1) x16tables)).denseCurrent = false := by decide +kernel

theorem witness_OnlyCfgSetWritesConfiguration : writesConfiguration (.updBit [1]) = false := rfl

/-- Both ends of the bit index. -/
theorem witness_RoundsBitByBit : 0 < 16 ∧ 15 < 16 := by decide

theorem witness_NibbleConstructionIsTheTable_SkipBitsShortCut :
    (0xF0#8).toNat % 16 = 0 ∧ (0x0F#8).toNat < 16 := by decide

theorem witness_GenWritesWholeTable_RescResult :
    x16.cfgValid = true ∧ State.reset.cfgValid = false := ⟨rfl, rfl⟩

theorem witness_DenseEqualsCompact :
    State.Inv x16tables ∧ x16tables.denseCurrent = true ∧ x16tables.compactCurrent = true ∧
    x16tables.cfgValid = true := ⟨x16tables_inv, by decide +kernel, by decide +kernel, rfl⟩

/-- Each alternative of the statement: a table generated anew over a stale one. -/
theorem witness_TableStoresChangeOnlyAsAWhole :
    x16stale.denseCurrent = false ∧ usesDense (.updT256 [1]) = true ∧
    (stateOf (exec (.updT256 [1]) x16stale)).dense.tag = x16stale.key ∧
    (stateOf (exec (.updBit [1]) x16stale)).dense.tag = a8.key := by decide +kernel

theorem witness_AccInitLoadsAdjustedInit :
    State.Inv x16acc ∧ x16acc.cfgValid = true ∧ State.reset.cfgValid = false :=
  ⟨x16acc_inv, rfl, rfl⟩

/-- The last value that fits 16 bits and the first that does not. -/
theorem witness_AccLoadLoadsRaw :
    x16.cfgValid = true ∧ (0xFFFF#64).toNat < 2 ^ (8 * 2 ^ x16.cfg.wc.toNat) ∧
    2 ^ (8 * 2 ^ x16.cfg.wc.toNat) ≤ (0x10000#64).toNat ∧ State.reset.cfgValid = false := by
  decide

theorem witness_WhoWritesTheAccumulator :
    writesAccumulator .rdFinal = false ∧ x16.accValid = false ∧
    (stateOf (exec .accInit x16)).accValid = true ∧ x16acc.accValid = true ∧
    (stateOf (exec (.cfgSet 7 0 0 0) x16acc)).accValid = false := by decide +kernel

/-- The three kinds of state the UPD and RD.INTERIM to RD.FINAL statements tell apart, with and without
current tables, and external tables of the right and of another width. -/
theorem witness_UpdResults_AccumulatorReads :
    State.Inv x16acc ∧ State.Inv x16tables ∧ x16acc.cfgValid = true ∧ x16acc.accValid = true ∧
    x16acc.denseCurrent = false ∧ x16tables.denseCurrent = true ∧
    State.reset.cfgValid = false ∧ x16.cfgValid = true ∧ x16.accValid = false ∧
    (tableOf x16).wc = x16acc.cfg.wc ∧ (tableOf c32).wc ≠ x16acc.cfg.wc :=
  ⟨x16acc_inv, x16tables_inv, rfl, rfl, by decide +kernel, by decide +kernel, rfl, rfl, rfl, rfl,
    by decide⟩

/-- The premises of StrategiesAreEquivalent, ChunkingChangesNothing, EmptyRangeKeepsCrc and
CalcIsInitUpdateFinal, with a table of another width for the last clauses. -/
theorem witness_Strategies :
    State.Inv x16stale ∧ x16stale.cfgValid = true ∧ x16stale.accValid = true ∧
    Strategy.Matches .x256 x16stale (tableOf x16stale) ∧
    Strategy.Matches .x16 x16stale (tableOf x16stale) ∧ Strategy.external .x16 = true ∧
    (tableOf x16stale).wc = x16stale.cfg.wc ∧ (tableOf c32).wc ≠ x16stale.cfg.wc ∧
    x16.accValid = false ∧ State.reset.cfgValid = false :=
  ⟨x16stale_inv, rfl, rfl, tableOf_matches _ _, tableOf_matches _ _, rfl, rfl, by decide, rfl, rfl⟩

/-- The two CRC-32 configurations of section 2.0, which differ in the override alone. -/
theorem witness_RefRegIsInvisible :
    State.Inv x16acc ∧ operandTooWide (.cfgSet 0x04C11DB7 0xFFFFFFFF 0xFFFFFFFF 0x0E) x16acc = false ∧
    (0x0E#6).extractLsb' 0 4 = (0x1E#6).extractLsb' 0 4 ∧
    Strategy.Matches .x256 c32 (tableOf c32) ∧ Strategy.Matches .x256 c32rr0 (tableOf c32rr0) ∧
    c32.cfg.refReg ≠ c32rr0.cfg.refReg :=
  ⟨x16acc_inv, by decide, by decide, tableOf_matches _ _, tableOf_matches _ _, by decide⟩

/-- Both sides of the index bound, in a state with stale tables and in one with current tables. -/
theorem witness_TableReads :
    State.Inv x16stale ∧ State.Inv x16tables ∧ x16stale.cfgValid = true ∧ x16tables.cfgValid = true ∧
    (15#8).toNat < 16 ∧ 15 < (16#8).toNat ∧ State.reset.cfgValid = false :=
  ⟨x16stale_inv, x16tables_inv, rfl, rfl, by decide, by decide, rfl⟩

/-- CRC-16 saved around CRC-32: the flags words 0x01 (`rr_en` = 0) and 0x11 (`rr_en` = 1) bring the
CRC-16 configuration back. -/
theorem witness_SaveAndRestoreAroundConfiguration :
    State.Inv x16acc ∧ x16acc.cfgValid = true ∧ x16acc.accValid = true ∧
    operandTooWide (.cfgSet 0x04C11DB7 0xFFFFFFFF 0xFFFFFFFF 0x0E) x16acc = false ∧
    ∀ g ∈ ([0x01, 0x11] : List (BitVec 6)),
      flagsWidth g = x16acc.cfg.wc ∧ flagsRefIn g = x16acc.cfg.refIn ∧
      flagsRefOut g = x16acc.cfg.refOut ∧ flagsRefReg g = x16acc.cfg.refReg :=
  ⟨x16acc_inv, rfl, rfl, by decide, by decide⟩

/-- The premises of RescFromTheAccumulator and ResidueRoundTrip, reflected and not. -/
theorem witness_Residue :
    State.Inv c32acc ∧ c32acc.cfgValid = true ∧ c32acc.cfg.refIn = c32acc.cfg.refOut ∧
    Strategy.Matches .x256 c32acc (tableOf c32acc) ∧ State.Inv x16acc ∧
    x16acc.cfg.refIn = x16acc.cfg.refOut ∧ Strategy.Matches .x16 x16acc (tableOf x16acc) :=
  ⟨c32acc_inv, rfl, rfl, tableOf_matches _ _, x16acc_inv, rfl, tableOf_matches _ _⟩

/-- The configuration of R140's example under the other register convention. -/
def m16aOther : State := configured 0x1021 0xFFFF 0x1234 0x39

/-- Both alternatives of the constant: `REF_REG = REF_IN` and `REF_REG != REF_IN`. -/
theorem witness_CodewordUnderMixedFlags :
    (State.Inv m16a ∧ m16a.cfgValid = true ∧ m16a.cfg.refIn ≠ m16a.cfg.refOut ∧
      m16a.cfg.refReg = m16a.cfg.refIn ∧ Strategy.Matches .x16 m16a (tableOf m16a)) ∧
    State.Inv m16aOther ∧ m16aOther.cfgValid = true ∧
    m16aOther.cfg.refIn ≠ m16aOther.cfg.refOut ∧ m16aOther.cfg.refReg ≠ m16aOther.cfg.refIn ∧
    Strategy.Matches .x256 m16aOther (tableOf m16aOther) :=
  ⟨⟨⟨by decide +kernel, nofun, nofun, DenseStore.reset_wf, CompactStore.reset_wf, rfl⟩,
      rfl, by decide, by decide, tableOf_matches _ _⟩,
    ⟨by decide +kernel, nofun, nofun, DenseStore.reset_wf, CompactStore.reset_wf, rfl⟩,
    rfl, by decide, by decide, tableOf_matches _ _⟩

/-- A state with both tables valid; the indices on either side of the bound. -/
theorem witness_IndexRangesAndEntryZero :
    State.Inv x16tables ∧ x16tables.dense.valid = true ∧ x16tables.compact.valid = true ∧
    x16tables.cfgValid = true ∧ (15#8).toNat < 16 ∧ ¬ (16#8).toNat < 16 :=
  ⟨x16tables_inv, rfl, rfl, rfl, by decide, by decide⟩

/-- A command that answers a violation, in a state with FAULT clear. -/
theorem witness_ViolationsArePrecise :
    statusOf (exec .rdFinal .reset) ≠ 0 ∧ State.reset.fault = false := by decide

/-- A set FAULT and a step that clears it. -/
theorem witness_FaultIsSticky :
    State.fault { x16 with fault := true, pending := [.reset] } = true ∧
    step { x16 with fault := true, pending := [.reset] } = .next State.reset ∧
    State.reset.fault = false := ⟨rfl, rfl, rfl⟩

/-- A step whose command changes CFG_VALID, and steps whose commands change each other valid bit. -/
theorem witness_ValidBitsChangeOnlySo :
    (∀ rest, [HostEvent.command (encode (.cfgSet 7 0 0 0))] ≠ .reset :: rest) ∧
    (stateOf (exec (.cfgSet 7 0 0 0) .reset)).cfgValid ≠ State.reset.cfgValid ∧
    (stateOf (exec (.rdT256 0) x16)).dense.valid ≠ x16.dense.valid ∧
    (stateOf (exec (.rdCol 0) x16)).compact.valid ≠ x16.compact.valid ∧
    x16.accValid = false ∧ (stateOf (exec (.calcBit []) x16)).accValid = true ∧
    x16acc.accValid = true ∧ (stateOf (exec (.cfgSet 7 0 0 0) x16acc)).accValid = false := by
  refine ⟨fun _ h => ?_, by decide +kernel, by decide +kernel, by decide +kernel, rfl, rfl, rfl, rfl⟩
  cases h

end Sys2Proof.Tests
end

