-- ==== Sys2Proof/Proofs/TableLinearity.lean ====
section
/-!
PROOFS. The content of a table is linear over XOR in the index (`42_table_generator.md` R95, R98):
a round is linear in the register, hence any number of rounds, hence a table entry; so an entry is the
XOR of the entries of the index's two nibbles, and entry 0 is zero.
-/

namespace Sys2Proof.Machine

@[simp] theorem toPort_zero (w : Nat) : toPort 0#w = 0#64 := by simp [toPort]

@[simp] theorem ofPort_zero (w : Nat) : ofPort w 0#64 = 0#w := by simp [ofPort]

theorem toPort_xor {w : Nat} (u v : BitVec w) : toPort (u ^^^ v) = toPort u ^^^ toPort v :=
  BitVec.setWidth_xor

/-- The feedback of a round, XORing `P` in when the bit shifted out is 1, is linear in the pair of
that bit and the shifted register. -/
theorem feedback_xor {w : Nat} (p q : Bool) (x y poly : BitVec w) :
    (if (p ^^ q) = true then x ^^^ y ^^^ poly else x ^^^ y) =
      (if p = true then x ^^^ poly else x) ^^^ (if q = true then y ^^^ poly else y) := by
  have cancel : x ^^^ poly ^^^ (y ^^^ poly) = x ^^^ y := by
    rw [BitVec.xor_comm y, BitVec.xor_assoc, ← BitVec.xor_assoc poly, BitVec.xor_self,
      BitVec.zero_xor]
  cases p <;> cases q
  · rfl
  · exact BitVec.xor_assoc x y poly
  · change x ^^^ y ^^^ poly = x ^^^ poly ^^^ y
    ac_rfl
  · exact cancel.symm

theorem bitRound_xor {w : Nat} (r : Bool) (a b poly : BitVec w) :
    bitRound r (a ^^^ b) poly = bitRound r a poly ^^^ bitRound r b poly := by
  cases r
  · simp only [bitRound, BitVec.getLsbD_xor, BitVec.shiftLeft_xor_distrib]
    exact feedback_xor ..
  · simp only [bitRound, BitVec.getLsbD_xor, BitVec.ushiftRight_xor_distrib]
    exact feedback_xor ..

theorem bitRound_zero {w : Nat} (r : Bool) (poly : BitVec w) : bitRound r 0#w poly = 0#w := by
  cases r <;> simp [bitRound]

theorem rounds_xor {w : Nat} (r : Bool) (a b poly : BitVec w) (n : Nat) :
    rounds r (a ^^^ b) poly n = rounds r a poly n ^^^ rounds r b poly n := by
  induction n with
  | zero => rfl
  | succ n ih => rw [rounds_succ, ih, bitRound_xor, rounds_succ, rounds_succ]

theorem rounds_of_zero {w : Nat} (r : Bool) (poly : BitVec w) (n : Nat) :
    rounds r 0#w poly n = 0#w := by
  induction n with
  | zero => rfl
  | succ n ih => rw [rounds_succ, ih, bitRound_zero]

theorem loadByte_xor (w : Nat) (r : Bool) (a b : Byte) :
    loadByte w r (a ^^^ b) = loadByte w r a ^^^ loadByte w r b := by
  cases r <;> simp [loadByte, BitVec.setWidth_xor, BitVec.shiftLeft_xor_distrib]

theorem loadByte_zero (w : Nat) (r : Bool) : loadByte w r 0#8 = 0#w := by
  cases r <;> simp [loadByte]

theorem tableEntry_xor {w : Nat} (r : Bool) (poly : BitVec w) (i j : Byte) :
    tableEntry r poly (i ^^^ j) = tableEntry r poly i ^^^ tableEntry r poly j := by
  rw [tableEntry, loadByte_xor, rounds_xor, tableEntry, tableEntry]

@[simp] theorem tableEntry_zero {w : Nat} (r : Bool) (poly : BitVec w) :
    tableEntry r poly 0#8 = 0#w := by
  rw [tableEntry, loadByte_zero, rounds_of_zero]

/-- An index is its low nibble XOR its high nibble in place. -/
theorem lowNibble_xor_highNibble (i : Byte) : (i &&& 0x0F#8) ^^^ ((i >>> 4) <<< 4) = i := by
  revert i; decide

/-- R103 on the content of a table: an entry is the XOR of its row entry and its column entry. -/
theorem tableEntry_nibbles {w : Nat} (r : Bool) (poly : BitVec w) (i : Byte) :
    tableEntry r poly i =
      tableEntry r poly (i &&& 0x0F#8) ^^^ tableEntry r poly ((i >>> 4) <<< 4) := by
  rw [← tableEntry_xor, lowNibble_xor_highNibble]

end Sys2Proof.Machine
end

