-- ==== Sys2Proof/Proofs/TableReads.lean ====
section
/-!
PROOFS. What a read of a table store answers in a state that meets the invariant: entry 0 of a valid
store, reads of current stores, and the responses of RD.T256, RD.ROW and RD.COL
(`45_accumulator_commands.md` R154 to R156).
-/

namespace Sys2Proof.Machine

/-! ### Entry 0 of a valid store (`20_memory.md` R45) -/

theorem DenseStore.entry_zero {d : DenseStore} (h : d.Wf) (hv : d.valid = true) :
    d.entries[0] = 0 := by
  simpa using (h hv).2 0

theorem CompactStore.entry_zero {c : CompactStore} (h : c.Wf) (hv : c.valid = true) :
    c.row[0] = 0 ∧ c.col[0] = 0 := by
  simpa using (h hv).2 0

theorem State.compactEntry_zero {s : State} (h : s.compact.Wf) (hv : s.compact.valid = true) :
    compactEntry s.readRow s.readCol 0 = 0 := by
  obtain ⟨hrow, hcol⟩ := CompactStore.entry_zero h hv
  simp [compactEntry, State.readRow, State.readCol, hrow, hcol]

/-! ### The indices of the compact store -/

theorem ofNat_lowNibble (i : Byte) : BitVec.ofNat 8 (i.extractLsb' 0 4).toNat = i &&& 0x0F#8 := by
  revert i; decide

theorem ofNat_highNibble (i : Byte) :
    BitVec.ofNat 8 (16 * (i.extractLsb' 4 4).toNat) = (i >>> 4) <<< 4 := by
  revert i; decide

theorem ofNat_lowNibble_mul (i : Byte) :
    BitVec.ofNat 8 (16 * (i.extractLsb' 0 4).toNat) = i <<< 4 := by
  revert i; decide

theorem and_lowNibble_of_lt {i : Byte} (h : i.toNat < 16) : i &&& 0x0F#8 = i := by
  revert i; decide

theorem toNat_lowNibble_lt (i : Byte) : (i &&& 0x0F#8).toNat < 16 := by
  revert i; decide

theorem toNat_highNibble_lt (i : Byte) : (i >>> 4).toNat < 16 := by
  revert i; decide

/-! ### The responses of the table reads -/

theorem State.requireCfg_of_valid {s : State} (h : s.cfgValid = true) (k : Result) :
    s.requireCfg k = k := by
  simp [State.requireCfg, h]

theorem State.requireNibble_of_lt (s : State) {i : Byte} (hi : i.toNat < 16) (k : Result) :
    s.requireNibble i k = k := by
  simp [State.requireNibble, nibbleIndex, hi]

theorem State.requireNibble_of_le (s : State) {i : Byte} (hi : 16 ≤ i.toNat) (k : Result) :
    s.requireNibble i k = .next (s.violate .operandRange) := by
  simp [State.requireNibble, State.raise, nibbleIndex, Nat.not_lt.2 hi]

theorem exec_rdT256 {s : State} (hc : s.cfgValid = true) (h : s.dense.Wf) (i : Byte) :
    exec (.rdT256 i) s =
      .next (s.withDense.respond (toPort (tableEntry s.cfg.refReg s.polyVal i))) := by
  rw [← State.readDense_withDense h]
  exact State.requireCfg_of_valid hc _

theorem exec_rdRow_of_lt {s : State} (hc : s.cfgValid = true) (h : s.compact.Wf) {i : Byte}
    (hi : i.toNat < 16) :
    exec (.rdRow i) s =
      .next (s.withCompact.respond (toPort (tableEntry s.cfg.refReg s.polyVal i))) := by
  have hread := (State.readCompact_withCompact h (i.extractLsb' 0 4)).1
  rw [ofNat_lowNibble, and_lowNibble_of_lt hi] at hread
  rw [← hread]
  exact (State.requireCfg_of_valid hc _).trans (State.requireNibble_of_lt s hi _)

theorem exec_rdCol_of_lt {s : State} (hc : s.cfgValid = true) (h : s.compact.Wf) {i : Byte}
    (hi : i.toNat < 16) :
    exec (.rdCol i) s =
      .next (s.withCompact.respond (toPort (tableEntry s.cfg.refReg s.polyVal (i <<< 4)))) := by
  have hread := (State.readCompact_withCompact h (i.extractLsb' 0 4)).2
  rw [ofNat_lowNibble_mul] at hread
  rw [← hread]
  exact (State.requireCfg_of_valid hc _).trans (State.requireNibble_of_lt s hi _)

theorem exec_rdRow_of_le {s : State} (hc : s.cfgValid = true) {i : Byte} (hi : 16 ≤ i.toNat) :
    exec (.rdRow i) s = .next (s.violate .operandRange) :=
  (State.requireCfg_of_valid hc _).trans (State.requireNibble_of_le s hi _)

theorem exec_rdCol_of_le {s : State} (hc : s.cfgValid = true) {i : Byte} (hi : 16 ≤ i.toNat) :
    exec (.rdCol i) s = .next (s.violate .operandRange) :=
  (State.requireCfg_of_valid hc _).trans (State.requireNibble_of_le s hi _)

end Sys2Proof.Machine
end

