-- ==== Sys2Proof/Proofs/Memory.lean ====
section
/-!
PROOFS. The statements of `20_memory.md`: dense and compact tables hold the same function, the index
ranges, entry 0.
-/

namespace Sys2Proof.Proofs

open Sys2Proof.Machine

/-- R44: with both stores current, each read is the entry of the present key, and an entry is the XOR
of its nibbles' entries. -/
theorem readDense_eq_xor_of_current {s : State} (h : State.Inv s) (hd : s.denseCurrent = true)
    (hc : s.compactCurrent = true) (i : Byte) :
    s.readDense i = s.readRow (i.extractLsb' 0 4) ^^^ s.readCol (i.extractLsb' 4 4) := by
  obtain ⟨hdv, hdt⟩ := s.denseCurrent_iff.1 hd
  obtain ⟨hcv, hct⟩ := s.compactCurrent_iff.1 hc
  rw [State.readDense_of_wf hdv hdt h.dense,
    (State.readCompact_of_wf hcv hct h.compact _).1, (State.readCompact_of_wf hcv hct h.compact _).2,
    ofNat_lowNibble, ofNat_highNibble, ← tableEntry_nibbles]

/-- Settles O24: current or generated at first use, the three reads give entries of the present key,
and table entries are linear in the index. -/
theorem denseEqualsCompact : Obligations.DenseEqualsCompact := by
  intro s i h
  refine ⟨fun hd hc => readDense_eq_xor_of_current h hd hc i, fun hcfg => ?_⟩
  refine ⟨_, _, _, _, _, _, exec_rdT256 hcfg h.dense i, rfl,
    exec_rdRow_of_lt hcfg h.compact (toNat_lowNibble_lt i), rfl,
    exec_rdCol_of_lt hcfg h.compact (toNat_highNibble_lt i), rfl, ?_⟩
  rw [← toPort_xor]
  exact congrArg toPort (tableEntry_nibbles ..)

/-- The table reads of index 0 answer 0 in every configured state. -/
theorem tableReads_of_zero {s : State} (h : State.Inv s) (hcfg : s.cfgValid = true) :
    ∀ i ∈ [Instr.rdT256 0, Instr.rdRow 0, Instr.rdCol 0], ∃ t : State,
      exec i s = .next t ∧ t.resp = some ⟨0, 0⟩ := by
  have hlt : (0 : Byte).toNat < 16 := by decide
  simp only [List.forall_mem_cons, List.not_mem_nil, false_implies, implies_true, and_true]
  exact ⟨⟨_, exec_rdT256 hcfg h.dense 0, by simp⟩,
    ⟨_, exec_rdRow_of_lt hcfg h.compact hlt, by simp⟩,
    ⟨_, exec_rdCol_of_lt hcfg h.compact hlt, by simp⟩⟩

/-- Settles O52: entry 0 from the store invariants, the index ranges by the two sides of the check of
the nibble index. -/
theorem indexRangesAndEntryZero : Obligations.IndexRangesAndEntryZero := by
  intro s h
  refine ⟨DenseStore.entry_zero h.dense, fun hv => ?_, fun hcfg => ⟨tableReads_of_zero h hcfg, ?_⟩⟩
  · obtain ⟨hrow, hcol⟩ := CompactStore.entry_zero h.compact hv
    exact ⟨hrow, hcol, State.compactEntry_zero h.compact hv⟩
  · intro idx
    have hdense := exec_rdT256 hcfg h.dense idx
    by_cases hi : idx.toNat < 16
    · exact ⟨_, _, _, _, _, _, 0, hdense, rfl, exec_rdRow_of_lt hcfg h.compact hi, rfl,
        exec_rdCol_of_lt hcfg h.compact hi, rfl, by simp [hi]⟩
    · have hle : 16 ≤ idx.toNat := Nat.not_lt.1 hi
      exact ⟨_, _, _, _, _, _, 3, hdense, rfl, exec_rdRow_of_le hcfg hle, rfl,
        exec_rdCol_of_le hcfg hle, rfl, by simp [hi]⟩

end Sys2Proof.Proofs
end

