-- ==== Sys2Proof/Proofs/Decode.lean ====
section
/-!
PROOFS. The decoder against the encoder (`30_encoding.md` R63, R64, R67): a request decodes to a
command exactly when the command's encoding has its word and the slots the command's row lists; and
whether it decodes at all is settled by the word.
-/

namespace Sys2Proof.Machine

theorem encode_of_decode {r : Request} {i : Instr} (h : decode r = .ok i) :
    encode i = ⟨r.cmd, listedSlots i r.slots⟩ := by
  obtain ⟨⟨⟨word, _⟩⟩, slots⟩ := r
  unfold decode at h
  split at h <;> cases h
  all_goals
    next hword =>
      cases hword
      rfl

theorem decode_of_encode {r : Request} {i : Instr}
    (h : encode i = ⟨r.cmd, listedSlots i r.slots⟩) : decode r = .ok i := by
  obtain ⟨word, slots⟩ := r
  cases i <;> cases h <;> rfl

theorem encode_cmd_of_decode {r : Request} {i : Instr} (h : decode r = .ok i) :
    (encode i).cmd = r.cmd := by
  rw [encode_of_decode h]

/-- R67: whether a request is a command is settled by its word. The reserved words are the last case
of the decoder. -/
theorem exists_decode_of_cmd_eq {r r' : Request} {i : Instr} (hcmd : r.cmd = r'.cmd)
    (h : decode r = .ok i) : ∃ i', decode r' = .ok i' := by
  unfold decode at h ⊢
  rw [hcmd] at h
  split at h
  case h_27 => cases h
  all_goals exact ⟨_, rfl⟩

end Sys2Proof.Machine
end

