-- ==== Sys2Proof/Proofs/Encoding.lean ====
section
/-!
PROOFS. The statements of `30_encoding.md`: which command a word is depends on the word alone.
-/

namespace Sys2Proof.Proofs

open Sys2Proof.Machine

/-- Settles O10: the word settles that there is a command, and a command's encoding, which settles
what decodes to it, holds of a request no more than the word and the listed slots. -/
theorem unlistedSlotsAreIgnored : Obligations.UnlistedSlotsAreIgnored := by
  intro r r' i hcmd h
  constructor
  · obtain ⟨i', h'⟩ := exists_decode_of_cmd_eq hcmd h
    exact ⟨i', h', by rw [encode_cmd_of_decode h', encode_cmd_of_decode h, hcmd]⟩
  · intro hslots
    exact decode_of_encode (by rw [encode_of_decode h, hcmd, hslots])

end Sys2Proof.Proofs
end

