-- ==== Sys2Proof/Proofs/Reversal.lean ====
section
/-!
PROOFS. The laws of `rev` at any width (`41_bit_reflection.md` R80, R85), bit by bit from one fact:
bit `i` of `rev v`, counted from the low end, is bit `i` of `v`, counted from the high end. Then
reversal on 64-bit ports, and the two sides of the range check that stands before it.
-/

namespace Sys2Proof.Machine

theorem getLsbD_rev {w : Nat} (v : BitVec w) (i : Nat) : (rev v).getLsbD i = v.getMsbD i :=
  BitVec.getLsbD_reverse

@[simp] theorem rev_rev {w : Nat} (v : BitVec w) : rev (rev v) = v := BitVec.reverse_reverse_eq

theorem rev_involutive (w : Nat) : Function.Involutive (fun v : BitVec w => rev v) := rev_rev

theorem rev_xor {w : Nat} (a b : BitVec w) : rev (a ^^^ b) = rev a ^^^ rev b := by
  apply BitVec.eq_of_getLsbD_eq
  intro i _
  simp only [BitVec.getLsbD_xor, getLsbD_rev, BitVec.getMsbD_xor]

theorem rev_and {w : Nat} (a b : BitVec w) : rev (a &&& b) = rev a &&& rev b := by
  apply BitVec.eq_of_getLsbD_eq
  intro i _
  simp only [BitVec.getLsbD_and, getLsbD_rev, BitVec.getMsbD_and]

theorem rev_or {w : Nat} (a b : BitVec w) : rev (a ||| b) = rev a ||| rev b := by
  apply BitVec.eq_of_getLsbD_eq
  intro i _
  simp only [BitVec.getLsbD_or, getLsbD_rev, BitVec.getMsbD_or]

theorem rev_allOnes (w : Nat) : rev (BitVec.allOnes w) = BitVec.allOnes w := by
  apply BitVec.eq_of_getLsbD_eq
  intro i hi
  have hmirror : w - 1 - i < w := by omega
  simp [rev_getLsbD _ hi, hi, hmirror]

/-- Seen from the other end, a left shift is a right shift, past the width too: R85 bounds the shift
by the width, and nothing here needs that. -/
theorem rev_shiftLeft {w : Nat} (v : BitVec w) (k : Nat) : rev (v <<< k) = rev v >>> k := by
  apply BitVec.eq_of_getLsbD_eq
  intro i _
  rw [getLsbD_rev, BitVec.getMsbD_shiftLeft, BitVec.getLsbD_ushiftRight, getLsbD_rev, Nat.add_comm]

theorem rev_ushiftRight {w : Nat} (v : BitVec w) (k : Nat) : rev (v >>> k) = rev v <<< k := by
  calc rev (v >>> k) = rev (rev (rev v <<< k)) := by rw [rev_shiftLeft, rev_rev]
    _ = rev v <<< k := rev_rev _

theorem rev_twoPow {w i : Nat} (h : i < w) :
    rev (BitVec.twoPow w i) = BitVec.twoPow w (w - 1 - i) := by
  apply BitVec.eq_of_getLsbD_eq
  intro j hj
  have hmirror : i = w - 1 - j ↔ w - 1 - i = j := by omega
  have hlt : w - 1 - i < w := by omega
  simp [rev_getLsbD _ hj, h, hlt, hmirror]

theorem rev_eq_self_iff {w : Nat} (v : BitVec w) :
    rev v = v ↔ ∀ i : Nat, i < w → v.getLsbD i = v.getLsbD (w - 1 - i) := by
  constructor
  · intro h i hi
    rw [← rev_getLsbD v hi, h]
  · intro h
    apply BitVec.eq_of_getLsbD_eq
    intro i hi
    rw [rev_getLsbD v hi, h i hi]

/-! ### Reversal on ports -/

@[simp] theorem getLsbD_toPort {w : Nat} (hw : w ≤ 64) (v : BitVec w) (i : Nat) :
    (toPort v).getLsbD i = v.getLsbD i := by
  by_cases hi : i < 64
  · simp [toPort, hi]
  · rw [BitVec.getLsbD_of_ge _ _ (by omega), BitVec.getLsbD_of_ge _ _ (by omega)]

/-- The reversal of the low `n` bits of a port, as the meanings compute it, is the one R80 gives bit
by bit. -/
theorem reversedAt_toPort_rev {n : Nat} (hn : n ≤ 64) (a : Port) :
    reversedAt n a (toPort (rev (ofPort n a))) := by
  intro i
  rw [getLsbD_toPort hn]
  by_cases hi : i < n
  · have hmirror : n - 1 - i < n := by omega
    rw [rev_getLsbD _ hi]
    simp [ofPort, hi, hmirror]
  · rw [BitVec.getLsbD_of_ge _ _ (by omega)]
    simp [hi]

theorem reversedAt_rev (a : Port) : reversedAt 64 a (rev a) := by
  simpa [toPort, ofPort] using reversedAt_toPort_rev (le_refl 64) a

/-! ### The check of an operand's range -/

theorem State.requireFits_of_lt (s : State) {n : Nat} {a : Port} (h : a.toNat < 2 ^ n)
    (k : Result) : s.requireFits n a k = k := by
  simp [State.requireFits, (fits_iff n a).2 h]

theorem State.requireFits_of_le (s : State) {n : Nat} {a : Port} (h : 2 ^ n ≤ a.toNat)
    (k : Result) : s.requireFits n a k = .next (s.violate .operandRange) := by
  simp [State.requireFits, State.raise, (fits_eq_false_iff n a).2 h]

end Sys2Proof.Machine
end

