-- ==== Sys2Proof/Proofs/BitReflection.lean ====
section
/-!
PROOFS. The statements of `41_bit_reflection.md`: what the four REV commands answer, and the laws of
reversal.
-/

namespace Sys2Proof.Proofs

open Sys2Proof.Machine

/-- The shape that REV.B, REV.H and REV.W share: an operand in range is answered by its reversal. -/
theorem requireFits_respond_reversed (s : State) {n : Nat} (hn : n ≤ 64) {a : Port}
    (h : a.toNat < 2 ^ n) :
    ∃ v, reversedAt n a v ∧
      s.requireFits n a (.next (s.respond (toPort (rev (ofPort n a))))) = .next (s.respond v) :=
  ⟨_, reversedAt_toPort_rev hn a, s.requireFits_of_lt h _⟩

/-- Settles O12: each of the three ranged commands is the range check before a reversed answer,
taken on its two sides; REV.D has no check. -/
theorem revCommandsReverse : Obligations.RevCommandsReverse := by
  refine ⟨fun _ => ⟨rfl, rfl, rfl, rfl⟩, fun s a => ⟨?_, ?_, ?_, ?_, ?_, ?_, ?_⟩⟩
  · exact requireFits_respond_reversed s (by decide)
  · exact fun h => s.requireFits_of_le h _
  · exact requireFits_respond_reversed s (by decide)
  · exact fun h => s.requireFits_of_le h _
  · exact requireFits_respond_reversed s (by decide)
  · exact fun h => s.requireFits_of_le h _
  · exact ⟨rev a, reversedAt_rev a, rfl⟩

/-- Settles O13: each law is a fact about single bits, and bijectivity follows from involution. -/
theorem reversalLaws : Obligations.ReversalLaws := fun w =>
  ⟨rev_rev, (rev_involutive w).bijective, fun a b => ⟨rev_xor a b, rev_and a b, rev_or a b⟩,
    rev_zero w, rev_allOnes w, fun v k _ => ⟨rev_shiftLeft v k, rev_ushiftRight v k⟩,
    fun _ hi => rev_twoPow hi, rev_eq_self_iff⟩

end Sys2Proof.Proofs
end

