-- ==== Sys2Proof/Proofs/RoundMirror.lean ====
section
/-!
PROOFS. The two bit rounds bit by bit, and the mirror law (`42_table_generator.md` R90, R91, R104):
reversing register and polynomial turns a round of one convention into a round of the other. The law
goes from a round to any number of rounds, through the loading of a byte, to a table entry; so what
follows shows a fact of the reflected convention and mirrors it.
-/

namespace Sys2Proof.Machine

theorem getLsbD_feedback {w : Nat} (out : Bool) (v poly : BitVec w) (i : Nat) :
    (if out = true then v ^^^ poly else v).getLsbD i =
      (v.getLsbD i ^^ (out && poly.getLsbD i)) := by
  cases out <;> simp

theorem getLsbD_bitRound_false {w i : Nat} (hi : i < w) (reg poly : BitVec w) :
    (bitRound false reg poly).getLsbD i =
      ((decide (0 < i) && reg.getLsbD (i - 1)) ^^ (reg.getLsbD (w - 1) && poly.getLsbD i)) := by
  have hshift : (reg <<< 1).getLsbD i = (decide (0 < i) && reg.getLsbD (i - 1)) := by
    cases i <;> simp [-BitVec.getLsbD_eq_getElem, BitVec.getLsbD_shiftLeft, hi]
  rw [← hshift]
  exact getLsbD_feedback ..

theorem getLsbD_bitRound_true {w : Nat} (reg poly : BitVec w) (i : Nat) :
    (bitRound true reg poly).getLsbD i =
      (reg.getLsbD (i + 1) ^^ (reg.getLsbD 0 && poly.getLsbD i)) := by
  have hshift : (reg >>> 1).getLsbD i = reg.getLsbD (i + 1) := by
    rw [BitVec.getLsbD_ushiftRight, Nat.add_comm]
  rw [← hshift]
  exact getLsbD_feedback ..

/-- The bit shifted out of the reversal (reflected) is the bit shifted out of `v` (unreflected). -/
theorem getLsbD_rev_zero {w : Nat} (v : BitVec w) : (rev v).getLsbD 0 = v.getLsbD (w - 1) := by
  rw [getLsbD_rev]
  exact BitVec.msb_eq_getLsbD_last v

/-- R91: reversal exchanges the two shifts and keeps the bit shifted out. -/
theorem bitRound_rev {w : Nat} (reg poly : BitVec w) :
    bitRound true (rev reg) (rev poly) = rev (bitRound false reg poly) := by
  cases hout : reg.getLsbD (w - 1) <;>
    simp [bitRound, getLsbD_rev_zero, hout, rev_xor, rev_shiftLeft]

theorem rounds_rev {w : Nat} (reg poly : BitVec w) (n : Nat) :
    rounds true (rev reg) (rev poly) n = rev (rounds false reg poly n) := by
  induction n with
  | zero => rfl
  | succ n ih => rw [rounds_succ, ih, bitRound_rev, rounds_succ]

theorem getLsbD_loadByte_true {w : Nat} (hw : 8 ≤ w) (b : Byte) (k : Nat) :
    (loadByte w true b).getLsbD k = b.getLsbD k := by
  by_cases hk : k < w
  · simp [loadByte, hk]
  · rw [BitVec.getLsbD_of_ge _ _ (by omega), BitVec.getLsbD_of_ge _ _ (by omega)]

theorem getMsbD_loadByte_false {w : Nat} (hw : 8 ≤ w) (b : Byte) (k : Nat) :
    (loadByte w false b).getMsbD k = b.getMsbD k := by
  have hbit : k + (w - 8) + 8 - w = k := by omega
  simp [loadByte, BitVec.getMsbD_shiftLeft, BitVec.getMsbD_setWidth, hbit]

/-- R104: a byte's reversal in the low bits is the reversal of the byte in the high bits. -/
theorem loadByte_rev {w : Nat} (hw : 8 ≤ w) (b : Byte) :
    loadByte w true (rev b) = rev (loadByte w false b) := by
  apply BitVec.eq_of_getLsbD_eq
  intro k _
  rw [getLsbD_loadByte_true hw, getLsbD_rev, getLsbD_rev, getMsbD_loadByte_false hw]

theorem tableEntry_rev {w : Nat} (hw : 8 ≤ w) (poly : BitVec w) (i : Byte) :
    tableEntry true (rev poly) (rev i) = rev (tableEntry false poly i) := by
  rw [tableEntry, loadByte_rev hw, rounds_rev, tableEntry]

end Sys2Proof.Machine
end

