-- ==== Sys2Proof/Proofs/TableEntries.lean ====
section
/-!
PROOFS. Entries whose first rounds only shift (`42_table_generator.md` R101, R102): the short cut of
the generator and the fixed entries. Then the two nibbles of an index (R98), and the stores that hold
the entries (R96, R97).
-/

namespace Sys2Proof.Machine

/-! ### Rounds that only shift -/

theorem rounds_true_of_low_zero {w : Nat} {reg : BitVec w} (poly : BitVec w) {n : Nat}
    (h : ∀ k < n, reg.getLsbD k = false) : rounds true reg poly n = reg >>> n := by
  induction n with
  | zero => simp
  | succ n ih =>
    have hout : (reg >>> n).getLsbD 0 = false := by
      simpa [BitVec.getLsbD_ushiftRight] using h n n.lt_succ_self
    rw [rounds_succ, ih fun k hk => h k (Nat.lt_succ_of_lt hk), BitVec.shiftRight_add]
    simp [bitRound, hout]

/-- The mirror image of `rounds_true_of_low_zero`. -/
theorem rounds_false_of_high_zero {w : Nat} {reg : BitVec w} (poly : BitVec w) {n : Nat}
    (h : ∀ k < n, reg.getMsbD k = false) : rounds false reg poly n = reg <<< n := by
  have hmirror : rounds true (rev reg) (rev poly) n = rev reg >>> n :=
    rounds_true_of_low_zero _ fun k hk => by rw [getLsbD_rev, h k hk]
  rw [rounds_rev, ← rev_shiftLeft] at hmirror
  exact (rev_involutive w).injective hmirror

theorem tableEntry_true_of_low_zero {w : Nat} (hw : 8 ≤ w) (poly : BitVec w) {i : Byte} (m : Nat)
    {n : Nat} (hmn : n + m = 8) (h : ∀ k < n, i.getLsbD k = false) :
    tableEntry true poly i = rounds true (loadByte w true i >>> n) poly m := by
  rw [tableEntry, ← hmn, rounds_add,
    rounds_true_of_low_zero poly fun k hk => (getLsbD_loadByte_true hw i k).trans (h k hk)]

theorem tableEntry_false_of_high_zero {w : Nat} (hw : 8 ≤ w) (poly : BitVec w) {i : Byte} (m : Nat)
    {n : Nat} (hmn : n + m = 8) (h : ∀ k < n, i.getMsbD k = false) :
    tableEntry false poly i = rounds false (loadByte w false i <<< n) poly m := by
  rw [tableEntry, ← hmn, rounds_add,
    rounds_false_of_high_zero poly fun k hk => (getMsbD_loadByte_false hw i k).trans (h k hk)]

theorem loadByte_true_ushiftRight {w : Nat} (hw : 8 ≤ w) (b : Byte) (n : Nat) :
    loadByte w true b >>> n = loadByte w true (b >>> n) := by
  apply BitVec.eq_of_getLsbD_eq
  intro k _
  simp only [BitVec.getLsbD_ushiftRight, getLsbD_loadByte_true hw]

/-! ### The skip_bits short cut (`42_table_generator.md` R102) -/

theorem shiftLeft_four_ushiftRight_four {j : Byte} (hj : j.toNat < 16) : (j <<< 4) >>> 4 = j := by
  revert j; decide

theorem getLsbD_shiftLeft_four (j : Byte) : ∀ k < 4, (j <<< 4).getLsbD k = false := by
  revert j; decide

theorem getMsbD_of_lt_sixteen {j : Byte} (hj : j.toNat < 16) : ∀ k < 4, j.getMsbD k = false := by
  revert j; decide

theorem tableEntry_true_shiftLeft_four {w : Nat} (hw : 8 ≤ w) (poly : BitVec w) {j : Byte}
    (hj : j.toNat < 16) :
    tableEntry true poly (j <<< 4) = rounds true (j.setWidth w) poly 4 := by
  rw [tableEntry_true_of_low_zero hw poly 4 rfl (getLsbD_shiftLeft_four j),
    loadByte_true_ushiftRight hw, shiftLeft_four_ushiftRight_four hj]
  rfl

theorem tableEntry_false_of_lt_sixteen {w : Nat} (hw : 8 ≤ w) (poly : BitVec w) {j : Byte}
    (hj : j.toNat < 16) :
    tableEntry false poly j = rounds false (j.setWidth w <<< (w - 4)) poly 4 := by
  have hload : loadByte w false j <<< 4 = j.setWidth w <<< (w - 4) := by
    have hsum : w - 4 = w - 8 + 4 := by omega
    rw [hsum, BitVec.shiftLeft_add]
    rfl
  rw [tableEntry_false_of_high_zero hw poly 4 rfl (getMsbD_of_lt_sixteen hj), hload]

/-! ### The entries that are the polynomial (`42_table_generator.md` R101) -/

theorem bitRound_true_one {w : Nat} (hw : 0 < w) (poly : BitVec w) :
    bitRound true 1#w poly = poly := by
  have hshift : 1#w >>> 1 = 0#w := by
    apply BitVec.eq_of_toNat_eq
    rw [BitVec.toNat_ushiftRight, BitVec.toNat_ofNat, Nat.mod_eq_of_lt (Nat.one_lt_two_pow hw.ne')]
    rfl
  simp [bitRound, hshift, hw]

/-- Seven rounds bring the one bit of the index to the low end, and the eighth shifts it out. -/
theorem tableEntry_true_0x80 {w : Nat} (hw : 8 ≤ w) (poly : BitVec w) :
    tableEntry true poly 0x80#8 = poly := by
  have hone : loadByte w true (0x80#8 >>> 7) = 1#w :=
    BitVec.setWidth_ofNat_one_eq_ofNat_one_of_lt (by decide)
  rw [tableEntry_true_of_low_zero hw poly 1 (n := 7) rfl (by decide),
    loadByte_true_ushiftRight hw, hone]
  exact bitRound_true_one (by omega) poly

/-- The mirror image of `tableEntry_true_0x80`. -/
theorem tableEntry_false_0x01 {w : Nat} (hw : 8 ≤ w) (poly : BitVec w) :
    tableEntry false poly 0x01#8 = poly := by
  have hmirror : rev (tableEntry false poly 0x01#8) = rev poly := by
    rw [← tableEntry_rev hw]
    exact tableEntry_true_0x80 hw (rev poly)
  exact (rev_involutive w).injective hmirror

/-! ### The nibbles of an index (`42_table_generator.md` R98) -/

theorem toNat_highNibble_inPlace (i : Byte) : ((i >>> 4) <<< 4).toNat % 16 = 0 := by
  revert i; decide

theorem toNat_xor_mod_sixteen {k i : Byte} (hk : k.toNat % 16 = 0) (hi : i.toNat < 16) :
    (k ^^^ i).toNat % 16 = i.toNat := by
  calc (k.toNat ^^^ i.toNat) % 2 ^ 4 = (k.toNat % 16) ^^^ (i.toNat % 16) := Nat.xor_mod_two_pow
    _ = i.toNat := by rw [hk, Nat.mod_eq_of_lt hi, Nat.zero_xor]

/-- A column index combined with a row index has the row index for its low nibble, and the column
index is the rest. -/
theorem nibbles_unique {k i k' i' : Byte} (hk : k.toNat % 16 = 0) (hi : i.toNat < 16)
    (hk' : k'.toNat % 16 = 0) (hi' : i'.toNat < 16) (h : k ^^^ i = k' ^^^ i') :
    k = k' ∧ i = i' := by
  have hlow : i = i' := by
    apply BitVec.eq_of_toNat_eq
    rw [← toNat_xor_mod_sixteen hk hi, h, toNat_xor_mod_sixteen hk' hi']
  subst hlow
  exact ⟨(BitVec.xor_left_inj i).1 h, rfl⟩

theorem existsUnique_nibbles (j : Byte) :
    ∃! p : Byte × Byte, p.1.toNat % 16 = 0 ∧ p.2.toNat < 16 ∧ j = p.1 ^^^ p.2 := by
  have hj : j = ((j >>> 4) <<< 4) ^^^ (j &&& 0x0F#8) := by
    rw [BitVec.xor_comm, lowNibble_xor_highNibble]
  refine ⟨(_, _), ⟨toNat_highNibble_inPlace j, toNat_lowNibble_lt j, hj⟩, ?_⟩
  rintro ⟨k, i⟩ ⟨hk, hi, hki⟩
  obtain ⟨rfl, rfl⟩ := nibbles_unique hk hi (toNat_highNibble_inPlace j) (toNat_lowNibble_lt j)
    (hki.symm.trans hj)
  rfl

/-! ### Generated stores (`42_table_generator.md` R96, R97) -/

theorem State.denseTable_entry (s : State) (i : Fin 256) :
    s.denseTable.entries[i.val]'i.isLt =
      toPort (tableEntry s.cfg.refReg s.polyVal (BitVec.ofNat 8 i.val)) :=
  Vector.getElem_ofFn i.isLt

theorem State.compactTable_entry (s : State) (i : Fin 16) :
    s.compactTable.row[i.val]'i.isLt =
        toPort (tableEntry s.cfg.refReg s.polyVal (BitVec.ofNat 8 i.val)) ∧
      s.compactTable.col[i.val]'i.isLt =
        toPort (tableEntry s.cfg.refReg s.polyVal (BitVec.ofNat 8 (16 * i.val))) :=
  ⟨Vector.getElem_ofFn i.isLt, Vector.getElem_ofFn i.isLt⟩

theorem State.requireCfg_of_invalid {s : State} (h : s.cfgValid = false) (k : Result) :
    s.requireCfg k = .next (s.violate .notConfigured) := by
  simp [State.requireCfg, State.raise, h]

end Sys2Proof.Machine
end

