-- ==== Sys2Proof/Proofs/TableGenerator.lean ====
section
/-!
PROOFS. The statements of `42_table_generator.md`: the rounds, the entries of a table, and the two
commands that write one.
-/

namespace Sys2Proof.Proofs

open Sys2Proof.Machine

/-- Settles O17: a round is a shift and the feedback of the bit shifted out. -/
theorem roundsBitByBit : Obligations.RoundsBitByBit := fun _ reg poly =>
  ⟨fun i hi => ⟨getLsbD_bitRound_false hi reg poly, getLsbD_bitRound_true reg poly i⟩,
    bitRound_rev reg poly⟩

/-- Settles O18: by induction on the number of rounds, each linear in the register. -/
theorem roundsAreLinear : Obligations.RoundsAreLinear := fun _ r poly a b n =>
  ⟨rounds_xor r a b poly n, rounds_of_zero r poly n⟩

/-- Settles O19: entry 0 by linearity; at the others the index's one bit leaves in the last round. -/
theorem tablesHaveFixedEntries : Obligations.TablesHaveFixedEntries := fun wc r poly =>
  ⟨tableEntry_zero r poly, tableEntry_false_0x01 (eight_le_width wc) poly,
    tableEntry_true_0x80 (eight_le_width wc) poly⟩

/-- Settles O20: an entry is linear in the index, and an index has one high and one low nibble. -/
theorem nibbleConstructionIsTheTable : Obligations.NibbleConstructionIsTheTable := fun _ r poly =>
  ⟨tableEntry_zero r poly, fun k i _ _ => tableEntry_xor r poly k i, existsUnique_nibbles⟩

/-- Settles O21: the first four rounds only shift where the four bits processed first are zero; the
counter-case evaluates. -/
theorem skipBitsShortCut : Obligations.SkipBitsShortCut := by
  refine ⟨fun wc poly j hj => ⟨?_, ?_⟩, ?_, ?_⟩
  · exact tableEntry_true_shiftLeft_four (eight_le_width wc) poly hj
  · exact tableEntry_false_of_lt_sixteen (eight_le_width wc) poly hj
  · decide
  · exact rounds_of_zero false 0x1021#16 4

/-- Settles O22: the mirror law of one round, carried to the eight rounds of an entry. -/
theorem tablesMirror : Obligations.TablesMirror := fun wc poly i =>
  tableEntry_rev (eight_le_width wc) poly i

/-- Settles O23: each command is the check of the configuration before the write of a whole table. -/
theorem genWritesWholeTable : Obligations.GenWritesWholeTable := by
  refine ⟨fun _ => ⟨rfl, rfl⟩, fun s => ⟨fun hcfg => ⟨?_, ?_⟩, fun hcfg => ⟨?_, ?_⟩⟩⟩
  · exact ⟨s.denseTable.entries, s.denseTable_entry, State.requireCfg_of_valid hcfg _⟩
  · exact ⟨s.compactTable.row, s.compactTable.col, s.compactTable_entry,
      State.requireCfg_of_valid hcfg _⟩
  · exact State.requireCfg_of_invalid hcfg _
  · exact State.requireCfg_of_invalid hcfg _

end Sys2Proof.Proofs
end

