-- ==== Sys2Proof/Proofs/ByteSteps.lean ====
section
/-!
PROOFS. The two byte steps at any width (`43_byte_update.md` R114 to R116). They agree over the table of
the key (R134): the byte XORed into the register splits off the byte that leaves it, which is the table
index, and what is left only shifts. And they mirror: under the other convention, a step on the
reflections is the reflection of the step, which is what makes `REF_REG` invisible (R131).
-/

namespace Sys2Proof.Machine

/-- The lookup step of the rules' two formulas is the model's. -/
theorem lookupStep_eq_stepTab {w : Nat} (r : Bool) (look : Byte → BitVec w) :
    lookupStep r look = stepTab r look := by
  funext reg b
  cases r <;> rfl

/-- R116: all eight bits leave the register, and the index is the whole register XOR the byte. -/
theorem stepTab_of_width_eight (r : Bool) (look : Byte → BitVec 8) (reg : BitVec 8) (b : Byte) :
    stepTab r look reg b = look (reg ^^^ b) := by
  have hshift : (if r then reg >>> 8 else reg <<< 8) = 0#8 := by
    cases r
    · exact BitVec.shiftLeft_eq_zero le_rfl
    · exact BitVec.ushiftRight_eq_zero le_rfl
  have hindex : tableIndex r reg b = reg ^^^ b := by cases r <;> simp [tableIndex]
  rw [stepTab, hshift, hindex, BitVec.xor_zero]

/-! ### The bit-serial step and the lookup step (`43_byte_update.md` R134) -/

/-- The index is the byte that leaves the register, XOR the byte that comes in. -/
theorem tableIndex_eq_xor {w : Nat} (r : Bool) (reg : BitVec w) (b : Byte) :
    tableIndex r reg b = tableIndex r reg 0 ^^^ b := by
  cases r <;> simp [tableIndex]

theorem setWidth_rev {w : Nat} (hw : 8 ≤ w) (reg : BitVec w) :
    (rev reg).setWidth 8 = rev ((reg >>> (w - 8)).setWidth 8) := by
  apply BitVec.eq_of_getLsbD_eq
  intro k hk
  have hpos : w - 8 + (8 - 1 - k) = w - 1 - k := by omega
  have hmirror : 8 - 1 - k < 8 := by omega
  rw [rev_getLsbD _ hk, BitVec.getLsbD_setWidth, BitVec.getLsbD_setWidth,
    rev_getLsbD _ (hk.trans_le hw), BitVec.getLsbD_ushiftRight, hpos]
  simp [hk, hmirror]

theorem rounds_true_without_low_byte {w : Nat} (hw : 8 ≤ w) (reg poly : BitVec w) :
    rounds true (reg ^^^ loadByte w true (reg.setWidth 8)) poly 8 = reg >>> 8 := by
  have hlow : ∀ k < 8, (reg ^^^ loadByte w true (reg.setWidth 8)).getLsbD k = false := by
    intro k hk
    rw [BitVec.getLsbD_xor, getLsbD_loadByte_true hw, BitVec.getLsbD_setWidth]
    simp [hk]
  have hbyte : loadByte w true (reg.setWidth 8) >>> 8 = 0#w := by
    rw [loadByte_true_ushiftRight hw, BitVec.ushiftRight_eq_zero le_rfl, loadByte_zero]
  rw [rounds_true_of_low_zero poly hlow, BitVec.ushiftRight_xor_distrib, hbyte, BitVec.xor_zero]

/-- The mirror image of `rounds_true_without_low_byte`. -/
theorem rounds_false_without_high_byte {w : Nat} (hw : 8 ≤ w) (reg poly : BitVec w) :
    rounds false (reg ^^^ loadByte w false ((reg >>> (w - 8)).setWidth 8)) poly 8 = reg <<< 8 := by
  apply (rev_involutive w).injective
  change rev _ = rev _
  rw [← rounds_rev, rev_xor, ← loadByte_rev hw, ← setWidth_rev hw,
    rounds_true_without_low_byte hw, rev_shiftLeft]

/-- Without the byte that leaves it, the register only shifts. -/
theorem rounds_without_index_byte {w : Nat} (hw : 8 ≤ w) (r : Bool) (reg poly : BitVec w) :
    rounds r (reg ^^^ loadByte w r (tableIndex r reg 0)) poly 8 =
      if r then reg >>> 8 else reg <<< 8 := by
  cases r
  · simpa [tableIndex] using rounds_false_without_high_byte hw reg poly
  · simpa [tableIndex] using rounds_true_without_low_byte hw reg poly

theorem stepBit_eq_stepTab {w : Nat} (hw : 8 ≤ w) (r : Bool) (poly : BitVec w) :
    stepBit r poly = stepTab r (tableEntry r poly) := by
  funext reg b
  have hload : loadByte w r (tableIndex r reg b) =
      loadByte w r (tableIndex r reg 0) ^^^ loadByte w r b := by
    rw [tableIndex_eq_xor, loadByte_xor]
  have hsplit : reg ^^^ loadByte w r b = loadByte w r (tableIndex r reg b) ^^^
      (reg ^^^ loadByte w r (tableIndex r reg 0)) := by
    calc reg ^^^ loadByte w r b
      _ = loadByte w r (tableIndex r reg 0) ^^^ loadByte w r (tableIndex r reg 0) ^^^
          (reg ^^^ loadByte w r b) := by rw [BitVec.xor_self, BitVec.zero_xor]
      _ = _ := by rw [hload]; ac_rfl
  rw [stepBit, hsplit, rounds_xor, rounds_without_index_byte hw, stepTab, tableEntry]

/-! ### Under the other convention (`43_byte_update.md` R131) -/

theorem reflectIf_xor {w : Nat} (c : Bool) (a b : BitVec w) :
    reflectIf c (a ^^^ b) = reflectIf c a ^^^ reflectIf c b := by
  cases c
  · rfl
  · exact rev_xor a b

/-- Two reflections are one, or none. -/
theorem reflectIf_reflectIf {w : Nat} (c d : Bool) (v : BitVec w) :
    reflectIf c (reflectIf d v) = reflectIf (c ^^ d) v := by
  cases c <;> cases d <;> simp

/-- A reflection from the convention `r` to `r'`, and from there to `t`, goes from `r` to `t`. -/
theorem reflectIf_bne_trans {w : Nat} (r r' t : Bool) (v : BitVec w) :
    reflectIf (r' != t) (reflectIf (r != r') v) = reflectIf (r != t) v := by
  rw [reflectIf_reflectIf]
  congr 1
  cases r <;> cases r' <;> cases t <;> rfl

theorem rounds_reflectIf {w : Nat} (r r' : Bool) (reg poly : BitVec w) (n : Nat) :
    rounds r' (reflectIf (r != r') reg) (reflectIf (r != r') poly) n =
      reflectIf (r != r') (rounds r reg poly n) := by
  cases r <;> cases r'
  case false.true => exact rounds_rev reg poly n
  case true.false =>
    have h := congrArg rev (rounds_rev (rev reg) (rev poly) n)
    rw [rev_rev, rev_rev, rev_rev] at h
    exact h.symm
  all_goals rfl

theorem loadByte_reflectIf {w : Nat} (hw : 8 ≤ w) (r r' : Bool) (b : Byte) :
    loadByte w r' (reflectIf (r != r') b) = reflectIf (r != r') (loadByte w r b) := by
  cases r <;> cases r'
  case false.true => exact loadByte_rev hw b
  case true.false =>
    have h := congrArg rev (loadByte_rev hw (rev b))
    rw [rev_rev, rev_rev] at h
    exact h.symm
  all_goals rfl

theorem stepBit_reflectIf {w : Nat} (hw : 8 ≤ w) (r r' : Bool) (poly reg : BitVec w) (b : Byte) :
    stepBit r' (reflectIf (r != r') poly) (reflectIf (r != r') reg) (reflectIf (r != r') b) =
      reflectIf (r != r') (stepBit r poly reg b) := by
  rw [stepBit, loadByte_reflectIf hw, ← reflectIf_xor, rounds_reflectIf, stepBit]

/-- A byte step that commutes with a reflection carries it through a byte range. -/
theorem updateReg_reflectIf {w : Nat} (c : Bool) {f f' : BitVec w → Byte → BitVec w}
    {g g' : Byte → Byte} (hadapt : ∀ b, g' b = reflectIf c (g b))
    (hstep : ∀ reg b, f' (reflectIf c reg) (reflectIf c b) = reflectIf c (f reg b))
    (reg : BitVec w) (bytes : List Byte) :
    updateReg f' g' (reflectIf c reg) bytes = reflectIf c (updateReg f g reg bytes) := by
  induction bytes generalizing reg with
  | nil => rfl
  | cons b bytes ih => rw [updateReg_cons, hadapt, hstep, ih, updateReg_cons]

theorem residueConst_reflectIf {w : Nat} (refIn refOut r r' : Bool) (poly xorout : BitVec w) :
    residueConst refIn refOut r' (reflectIf (r != r') poly) xorout =
      residueConst refIn refOut r poly xorout := by
  have hxorout : reflectIf (r' != refOut) xorout =
      reflectIf (r != r') (reflectIf (r != refOut) xorout) := by
    rw [bne_comm (a := r) (b := refOut), reflectIf_bne_trans, bne_comm]
  rw [residueConst, hxorout, rounds_reflectIf, reflectIf_bne_trans, residueConst]

end Sys2Proof.Machine
end

