-- ==== Sys2Proof/Proofs/Strategies.lean ====
section
/-!
PROOFS. One form for the five strategies (`43_byte_update.md` R112, R117 to R123,
`45_accumulator_commands.md` R157): an UPD command is its checks before one state, in which `CRC` has
gone through the strategy's byte step and the store the strategy reads is current; a CALC command is the
same from the fresh accumulator. What the five commands answer, and their violations, then follow once
for all.
-/

namespace Sys2Proof.Machine

/-! ### The form -/

/-- The function a dense store holds at a width, read as `State.readDense` reads it. -/
def DenseStore.look (w : Nat) (d : DenseStore) (i : Byte) : BitVec w :=
  ofPort w (d.entries[i.toNat]'i.isLt)

/-- The function a compact store holds at a width, read as `State.readRow` and `State.readCol` read
it. -/
def CompactStore.look (w : Nat) (c : CompactStore) : Byte → BitVec w :=
  compactEntry (fun i => ofPort w (c.row[i.toNat]'i.isLt)) (fun i => ofPort w (c.col[i.toNat]'i.isLt))

/-- The dense store after the strategy has run in a state. -/
def Strategy.denseAfter (k : Strategy) (s : State) : DenseStore :=
  match k with
  | .t256 => s.withDense.dense
  | _ => s.dense

/-- The compact store after the strategy has run in a state. -/
def Strategy.compactAfter (k : Strategy) (s : State) : CompactStore :=
  match k with
  | .t16 => s.withCompact.compact
  | _ => s.compact

/-- The byte step of the strategy in a state. -/
def Strategy.byteStep (k : Strategy) (s : State) (xt : ExtTable) : BitVec s.w → Byte → BitVec s.w :=
  match k with
  | .bit => stepBit s.cfg.refReg s.polyVal
  | .t256 => stepTab s.cfg.refReg (s.withDense.dense.look s.w)
  | .t16 => stepTab s.cfg.refReg (s.withCompact.compact.look s.w)
  | .x256 => stepTab s.cfg.refReg (xtDense s.w xt)
  | .x16 => stepTab s.cfg.refReg (compactEntry (xtRow s.w xt) (xtCol s.w xt))

/-- The state a byte range leaves under a strategy. -/
def State.afterBytes (s : State) (k : Strategy) (bytes : List Byte) (xt : ExtTable) : State :=
  { s with
    crc := toPort (updateReg (k.byteStep s xt) s.adaptIn s.crcVal bytes)
    dense := k.denseAfter s
    compact := k.compactAfter s }

/-- The check of the external table, made by the strategies that read one. -/
def Strategy.requireTable (k : Strategy) (s : State) (xt : ExtTable) (r : Result) : Result :=
  if k.external then s.requireXt xt r else r

theorem exec_upd (k : Strategy) (bytes : List Byte) (xt : ExtTable) (s : State) :
    exec (k.upd bytes xt) s = s.requireCfg (s.requireAcc
      (k.requireTable s xt (.next ((s.afterBytes k bytes xt).respond 0)))) := by
  cases k <;> rfl

theorem exec_calc (k : Strategy) (bytes : List Byte) (xt : ExtTable) (s : State) :
    exec (k.calc bytes xt) s = s.requireCfg
      (k.requireTable s xt (.next (s.freshAcc.afterBytes k bytes xt).answerFinal)) := by
  cases k <;> rfl

/-! ### The checks -/

theorem State.requireAcc_of_valid {s : State} (h : s.accValid = true) (r : Result) :
    s.requireAcc r = r := by
  simp [State.requireAcc, h]

theorem State.requireAcc_of_invalid {s : State} (h : s.accValid = false) (r : Result) :
    s.requireAcc r = .next (s.violate .accNotLoaded) := by
  simp [State.requireAcc, State.raise, h]

theorem Strategy.requireTable_of_fits {k : Strategy} {s : State} {xt : ExtTable}
    (h : k.external = true → xt.wc = s.cfg.wc) (r : Result) : k.requireTable s xt r = r := by
  cases hk : k.external
  · simp [Strategy.requireTable, hk]
  · simp [Strategy.requireTable, State.requireXt, hk, h hk]

theorem Strategy.requireTable_of_ne {k : Strategy} {s : State} {xt : ExtTable}
    (hk : k.external = true) (h : xt.wc ≠ s.cfg.wc) (r : Result) :
    k.requireTable s xt r = .next (s.violate .extTableWidth) := by
  simp [Strategy.requireTable, State.requireXt, State.raise, hk, h]

section
variable {k : Strategy} {s : State} {xt : ExtTable} (bytes : List Byte)

theorem exec_upd_of_valid (hcfg : s.cfgValid = true) (hacc : s.accValid = true)
    (hxt : k.external = true → xt.wc = s.cfg.wc) :
    exec (k.upd bytes xt) s = .next ((s.afterBytes k bytes xt).respond 0) := by
  rw [exec_upd, State.requireCfg_of_valid hcfg, State.requireAcc_of_valid hacc,
    Strategy.requireTable_of_fits hxt]

theorem exec_upd_of_unconfigured (hcfg : s.cfgValid = false) :
    exec (k.upd bytes xt) s = .next (s.violate .notConfigured) := by
  rw [exec_upd, State.requireCfg_of_invalid hcfg]

theorem exec_upd_of_unloaded (hcfg : s.cfgValid = true) (hacc : s.accValid = false) :
    exec (k.upd bytes xt) s = .next (s.violate .accNotLoaded) := by
  rw [exec_upd, State.requireCfg_of_valid hcfg, State.requireAcc_of_invalid hacc]

theorem exec_upd_of_otherWidth (hcfg : s.cfgValid = true) (hacc : s.accValid = true)
    (hk : k.external = true) (hxt : xt.wc ≠ s.cfg.wc) :
    exec (k.upd bytes xt) s = .next (s.violate .extTableWidth) := by
  rw [exec_upd, State.requireCfg_of_valid hcfg, State.requireAcc_of_valid hacc,
    Strategy.requireTable_of_ne hk hxt]

theorem exec_calc_of_valid (hcfg : s.cfgValid = true)
    (hxt : k.external = true → xt.wc = s.cfg.wc) :
    exec (k.calc bytes xt) s = .next (s.freshAcc.afterBytes k bytes xt).answerFinal := by
  rw [exec_calc, State.requireCfg_of_valid hcfg, Strategy.requireTable_of_fits hxt]

end

/-! ### The stores -/

theorem State.withDense_current (s : State) : s.withDense.denseCurrent = true := by
  rw [State.denseCurrent_iff, State.withDense_dense]
  split
  · next hc => exact s.denseCurrent_iff.1 hc
  · exact ⟨rfl, rfl⟩

theorem State.withCompact_current (s : State) : s.withCompact.compactCurrent = true := by
  rw [State.compactCurrent_iff, State.withCompact_compact]
  split
  · next hc => exact s.compactCurrent_iff.1 hc
  · exact ⟨rfl, rfl⟩

/-- R99: a current store is left as it stands. -/
theorem State.withDense_of_current {s : State} (h : s.denseCurrent = true) : s.withDense = s := by
  simp [State.withDense, h]

theorem State.withCompact_of_current {s : State} (h : s.compactCurrent = true) :
    s.withCompact = s := by
  simp [State.withCompact, h]

theorem Strategy.denseAfter_wf {s : State} (h : s.dense.Wf) (k : Strategy) :
    (k.denseAfter s).Wf := by
  cases k
  case t256 => exact State.withDense_wf h
  all_goals exact h

theorem Strategy.compactAfter_wf {s : State} (h : s.compact.Wf) (k : Strategy) :
    (k.compactAfter s).Wf := by
  cases k
  case t16 => exact State.withCompact_wf h
  all_goals exact h

theorem State.withDense_madeCurrent {s : State} (h : s.dense.Wf) :
    s.DenseMadeCurrent s.withDense.dense := by
  have hvalid : s.withDense.dense.valid = true :=
    ((State.denseCurrent_iff _).1 s.withDense_current).1
  have htag : s.withDense.dense.tag = s.key :=
    ((State.denseCurrent_iff _).1 s.withDense_current).2
  refine ⟨hvalid, htag, fun i => ?_, fun hc => by rw [State.withDense_of_current hc]⟩
  have hi := (State.withDense_wf h hvalid).2 i
  rw [htag] at hi
  simpa [State.key, State.polyVal] using hi

theorem State.withCompact_madeCurrent {s : State} (h : s.compact.Wf) :
    s.CompactMadeCurrent s.withCompact.compact := by
  have hvalid : s.withCompact.compact.valid = true :=
    ((State.compactCurrent_iff _).1 s.withCompact_current).1
  have htag : s.withCompact.compact.tag = s.key :=
    ((State.compactCurrent_iff _).1 s.withCompact_current).2
  have hentries := (State.withCompact_wf h hvalid).2
  rw [htag] at hentries
  refine ⟨hvalid, htag, fun i => ?_, fun i => ?_, fun hc => by rw [State.withCompact_of_current hc]⟩
  · simpa [State.key, State.polyVal] using (hentries i).1
  · simpa [State.key, State.polyVal] using (hentries i).2

/-! ### Lookups -/

theorem highNibble_eq_mask (i : Byte) : (i >>> 4) <<< 4 = i &&& 0xF0 := by
  revert i; decide

theorem State.look_withDense {s : State} (h : s.dense.Wf) :
    s.withDense.dense.look s.w = tableEntry s.cfg.refReg s.polyVal :=
  funext fun i => State.readDense_withDense h i

theorem State.look_withCompact {s : State} (h : s.compact.Wf) :
    s.withCompact.compact.look s.w = fun i =>
      tableEntry s.cfg.refReg s.polyVal (i &&& 0x0F) ^^^
      tableEntry s.cfg.refReg s.polyVal (i &&& 0xF0) := by
  funext i
  have hrow := (State.readCompact_withCompact h (i.extractLsb' 0 4)).1
  have hcol := (State.readCompact_withCompact h (i.extractLsb' 4 4)).2
  rw [ofNat_lowNibble] at hrow
  rw [ofNat_highNibble, highNibble_eq_mask] at hcol
  exact congrArg₂ (· ^^^ ·) hrow hcol

/-- Two nibbles looked up are the whole index looked up (`42_table_generator.md` R98). -/
theorem tableEntry_masks {w : Nat} (r : Bool) (poly : BitVec w) (i : Byte) :
    tableEntry r poly (i &&& 0x0F) ^^^ tableEntry r poly (i &&& 0xF0) = tableEntry r poly i := by
  rw [← highNibble_eq_mask]
  exact (tableEntry_nibbles r poly i).symm

theorem Strategy.Matches.width {k : Strategy} {s : State} {xt : ExtTable} (h : k.Matches s xt) :
    k.external = true → xt.wc = s.cfg.wc := by
  intro hk
  cases k
  case x256 | x16 => exact h.1
  all_goals cases hk

/-- The two answers of an external compact table, at the nibbles taken as numbers. -/
theorem xtLook_eq (w : Nat) (xt : ExtTable) :
    compactEntry (xtRow w xt) (xtCol w xt) = fun i =>
      (xt.row[i.toNat % 16]'(Nat.mod_lt _ (by decide))).setWidth w ^^^
      (xt.col[i.toNat / 16]'(by have := i.isLt; omega)).setWidth w := by
  funext i
  have hlow : (i.extractLsb' 0 4).toNat = i.toNat % 16 := by revert i; decide
  have hhigh : (i.extractLsb' 4 4).toNat = i.toNat / 16 := by revert i; decide
  simp only [compactEntry, xtRow, xtCol, ofPort, hlow, hhigh]

theorem xtLook_of_matches {s : State} {xt : ExtTable} (h : Strategy.Matches .x16 s xt) :
    compactEntry (xtRow s.w xt) (xtCol s.w xt) = tableEntry s.cfg.refReg s.polyVal := by
  funext i
  have hlow : (i.extractLsb' 0 4).setWidth 8 = i &&& 0x0F := by revert i; decide
  have hhigh : (i.extractLsb' 4 4).setWidth 8 <<< 4 = i &&& 0xF0 := by revert i; decide
  rw [compactEntry, (h.2 _).1, (h.2 _).2, hlow, hhigh, tableEntry_masks]

/-- Every strategy whose table matches looks up the table of the key, so the five byte steps are one
(R134). -/
theorem Strategy.byteStep_of_matches {k : Strategy} {s : State} {xt : ExtTable} (hd : s.dense.Wf)
    (hc : s.compact.Wf) (h : k.Matches s xt) :
    k.byteStep s xt = stepBit s.cfg.refReg s.polyVal := by
  cases k with
  | bit => rfl
  | t256 => rw [stepBit_eq_stepTab (eight_le_width _), ← State.look_withDense hd]; rfl
  | t16 =>
    have hlook : s.withCompact.compact.look s.w = tableEntry s.cfg.refReg s.polyVal := by
      simp only [State.look_withCompact hc, tableEntry_masks]
    rw [stepBit_eq_stepTab (eight_le_width _), ← hlook]; rfl
  | x256 => rw [stepBit_eq_stepTab (eight_le_width _), ← funext h.2]; rfl
  | x16 => rw [stepBit_eq_stepTab (eight_le_width _), ← xtLook_of_matches h]; rfl

/-! ### The register -/

theorem State.crcVal_afterBytes (s : State) (k : Strategy) (bytes : List Byte) (xt : ExtTable) :
    (s.afterBytes k bytes xt).crcVal =
      updateReg (k.byteStep s xt) s.adaptIn s.crcVal bytes :=
  ofPort_width_toPort s.cfg.wc _

/-- The register after a byte range from `CRC`, whatever the strategy. -/
def State.regAfter (s : State) (bytes : List Byte) : BitVec s.w :=
  updateReg (stepBit s.cfg.refReg s.polyVal) s.adaptIn s.crcVal bytes

theorem State.crcVal_afterBytes_of_matches {k : Strategy} {s : State} {xt : ExtTable}
    (hd : s.dense.Wf) (hc : s.compact.Wf) (h : k.Matches s xt) (bytes : List Byte) :
    (s.afterBytes k bytes xt).crcVal = s.regAfter bytes := by
  rw [State.crcVal_afterBytes, Strategy.byteStep_of_matches hd hc h, State.regAfter]

theorem State.crc_afterBytes (s : State) (k : Strategy) (bytes : List Byte) (xt : ExtTable) :
    (s.afterBytes k bytes xt).crc = toPort (s.afterBytes k bytes xt).crcVal := by
  rw [State.crcVal_afterBytes]
  rfl

theorem State.crc_afterBytes_of_matches {k : Strategy} {s : State} {xt : ExtTable}
    (hd : s.dense.Wf) (hc : s.compact.Wf) (h : k.Matches s xt) (bytes : List Byte) :
    (s.afterBytes k bytes xt).crc = toPort (s.regAfter bytes) := by
  rw [State.crc_afterBytes]
  exact congrArg toPort (State.crcVal_afterBytes_of_matches hd hc h bytes)

/-- The register after a whole message, from the fresh accumulator (`45_accumulator_commands.md`
R157). -/
def State.messageReg (s : State) (bytes : List Byte) : BitVec s.w :=
  updateReg (stepBit s.cfg.refReg s.polyVal) s.adaptIn s.initVal bytes

theorem State.regAfter_freshAcc (s : State) (bytes : List Byte) :
    s.freshAcc.regAfter bytes = s.messageReg bytes := by
  have hinit : s.freshAcc.crcVal = s.initVal := ofPort_width_toPort s.cfg.wc _
  rw [State.regAfter, hinit]
  rfl

theorem State.crcVal_message_of_matches {k : Strategy} {s : State} {xt : ExtTable}
    (hd : s.dense.Wf) (hc : s.compact.Wf) (h : k.Matches s xt) (bytes : List Byte) :
    (s.freshAcc.afterBytes k bytes xt).crcVal = s.messageReg bytes :=
  (State.crcVal_afterBytes_of_matches (s := s.freshAcc) hd hc h bytes).trans
    (s.regAfter_freshAcc bytes)

theorem State.feed_eq (s : State) (step : BitVec s.w → Byte → BitVec s.w) (bytes : List Byte) :
    s.feed step bytes = toPort (updateReg step s.adaptIn s.crcVal bytes) := by
  have hadapt : s.adaptIn = fun b => if s.cfg.refIn = s.cfg.refReg then b else b.reverse := by
    funext b
    rw [State.adaptIn]
    cases s.cfg.refIn <;> cases s.cfg.refReg <;> rfl
  rw [hadapt]
  rfl

/-- A lookup strategy feeds the bytes through the rules' two formulas (R115). -/
theorem State.feed_lookupStep (s : State) (look : Byte → BitVec s.w) (bytes : List Byte) :
    s.feed (lookupStep s.cfg.refReg look) bytes =
      toPort (updateReg (stepTab s.cfg.refReg look) s.adaptIn s.crcVal bytes) := by
  rw [lookupStep_eq_stepTab, State.feed_eq]

/-! ### Two ranges one after the other (`43_byte_update.md` R128) -/

/-- A strategy's first run makes its store current, and so its second run finds the store as it will
leave it. -/
theorem Strategy.denseAfter_afterBytes (k : Strategy) (s : State) (bytes : List Byte)
    (xt : ExtTable) :
    k.denseAfter ((s.afterBytes k bytes xt).respond 0) = k.denseAfter s := by
  cases k
  case t256 =>
    have hstands : s.withDense.withDense = s.withDense :=
      State.withDense_of_current s.withDense_current
    have hdense : s.withDense.withDense.dense = s.withDense.dense := by rw [hstands]
    exact hdense
  all_goals rfl

theorem Strategy.compactAfter_afterBytes (k : Strategy) (s : State) (bytes : List Byte)
    (xt : ExtTable) :
    k.compactAfter ((s.afterBytes k bytes xt).respond 0) = k.compactAfter s := by
  cases k
  case t16 =>
    have hstands : s.withCompact.withCompact = s.withCompact :=
      State.withCompact_of_current s.withCompact_current
    have hcompact : s.withCompact.withCompact.compact = s.withCompact.compact := by rw [hstands]
    exact hcompact
  all_goals rfl

theorem Strategy.byteStep_afterBytes (k : Strategy) (s : State) (bytes : List Byte)
    (xt : ExtTable) :
    k.byteStep ((s.afterBytes k bytes xt).respond 0) xt = k.byteStep s xt := by
  cases k
  case t256 =>
    exact congrArg (fun d : DenseStore => stepTab s.cfg.refReg (d.look s.w))
      (Strategy.denseAfter_afterBytes .t256 s bytes xt)
  case t16 =>
    exact congrArg (fun c : CompactStore => stepTab s.cfg.refReg (c.look s.w))
      (Strategy.compactAfter_afterBytes .t16 s bytes xt)
  all_goals rfl

theorem State.afterBytes_append (s : State) (k : Strategy) (as bs : List Byte) (xt : ExtTable) :
    (((s.afterBytes k as xt).respond 0).afterBytes k bs xt).respond 0 =
      (s.afterBytes k (as ++ bs) xt).respond 0 := by
  have hcrc : (((s.afterBytes k as xt).respond 0).afterBytes k bs xt).crc =
      (s.afterBytes k (as ++ bs) xt).crc := by
    change toPort (updateReg (k.byteStep ((s.afterBytes k as xt).respond 0) xt) s.adaptIn
      (s.afterBytes k as xt).crcVal bs) = _
    rw [Strategy.byteStep_afterBytes, State.crcVal_afterBytes]
    exact congrArg toPort (updateReg_append ..).symm
  calc (((s.afterBytes k as xt).respond 0).afterBytes k bs xt).respond 0
    _ = State.respond { s with
          crc := (((s.afterBytes k as xt).respond 0).afterBytes k bs xt).crc
          dense := k.denseAfter ((s.afterBytes k as xt).respond 0)
          compact := k.compactAfter ((s.afterBytes k as xt).respond 0) } 0 := rfl
    _ = (s.afterBytes k (as ++ bs) xt).respond 0 := by
      rw [hcrc, Strategy.denseAfter_afterBytes, Strategy.compactAfter_afterBytes]
      rfl

theorem Strategy.Matches.afterBytes {k k' : Strategy} {s : State} {xt xt' : ExtTable}
    (h : k'.Matches s xt') (bytes : List Byte) :
    k'.Matches ((s.afterBytes k bytes xt).respond 0) xt' := h

/-- The second range by any strategy goes on from the register the first left (R129). -/
theorem State.regAfter_afterBytes {k : Strategy} {s : State} {xt : ExtTable} (hd : s.dense.Wf)
    (hc : s.compact.Wf) (h : k.Matches s xt) (as bs : List Byte) :
    ((s.afterBytes k as xt).respond 0).regAfter bs = s.regAfter (as ++ bs) := by
  change updateReg (stepBit s.cfg.refReg s.polyVal) s.adaptIn (s.afterBytes k as xt).crcVal bs = _
  rw [State.crcVal_afterBytes_of_matches hd hc h]
  exact (updateReg_append ..).symm

end Sys2Proof.Machine
end

