-- ==== Sys2Proof/Proofs/OtherConvention.lean ====
section
/-!
PROOFS. One configuration under the two register conventions (`43_byte_update.md` R131, `44_residue.md`
R141): two CFG.SETs that differ in the override of `ref_reg` differ in `REF_REG` and the two registers
derived with it, and from there the register, byte by byte, is the same or the reflection; the adapters
at either end take the reflection away.
-/

namespace Sys2Proof.Machine

/-- The configuration with another `REF_REG`, and the registers derived with it (`10_state.md` R23). -/
def CfgRegs.withRefReg (c : CfgRegs) (r : Bool) : CfgRegs :=
  { c with
    refReg := r
    actualPoly := toPort (reflectIf r (ofPort (width c.wc) c.poly))
    actualInit := toPort (reflectIf r (ofPort (width c.wc) c.init)) }

/-- The machine under that configuration. -/
def State.withRefReg (s : State) (r : Bool) : State := { s with cfg := s.cfg.withRefReg r }

/-! ### CFG.SET -/

theorem width_flagsWidth (f : BitVec 6) : width (flagsWidth f) = 8 * 2 ^ (f.toNat % 4) := by
  revert f; decide

theorem exec_cfgSet_of_fits {poly init xorout : Port} {f : BitVec 6} {s : State}
    (h : operandTooWide (.cfgSet poly init xorout f) s = false) :
    exec (.cfgSet poly init xorout f) s =
      .next ((s.configure (resolve poly init xorout f)).respond 0) := by
  simp only [operandTooWide, ← width_flagsWidth, Bool.or_eq_false_iff, decide_eq_false_iff_not,
    Nat.not_le] at h
  obtain ⟨⟨hpoly, hinit⟩, hxorout⟩ := h
  exact (s.requireFits_of_lt hpoly _).trans
    ((s.requireFits_of_lt hinit _).trans (s.requireFits_of_lt hxorout _))

/-- The fields of the flags word below the override (R66). -/
theorem flags_eq_of_low_eq {f g : BitVec 6} (h : f.extractLsb' 0 4 = g.extractLsb' 0 4) :
    flagsWidth f = flagsWidth g ∧ flagsRefIn f = flagsRefIn g ∧ flagsRefOut f = flagsRefOut g := by
  have hlow : ∀ e : BitVec 6, flagsWidth e = (e.extractLsb' 0 4).extractLsb' 0 2 ∧
      flagsRefIn e = (e.extractLsb' 0 4).getLsbD 2 ∧
      flagsRefOut e = (e.extractLsb' 0 4).getLsbD 3 := by decide
  obtain ⟨hwidth, hin, hout⟩ := hlow f
  obtain ⟨hwidth', hin', hout'⟩ := hlow g
  rw [hwidth, hin, hout, h, hwidth', hin', hout']
  exact ⟨rfl, rfl, rfl⟩

theorem operandTooWide_congr_flags {poly init xorout : Port} {f g : BitVec 6} {s : State}
    (h : f.extractLsb' 0 4 = g.extractLsb' 0 4) :
    operandTooWide (.cfgSet poly init xorout g) s =
      operandTooWide (.cfgSet poly init xorout f) s := by
  simp only [operandTooWide, ← width_flagsWidth, (flags_eq_of_low_eq h).1]

theorem resolve_congr_flags {f g : BitVec 6} (h : f.extractLsb' 0 4 = g.extractLsb' 0 4)
    (poly init xorout : Port) :
    resolve poly init xorout g = (resolve poly init xorout f).withRefReg (flagsRefReg g) := by
  obtain ⟨hwidth, hin, hout⟩ := flags_eq_of_low_eq h
  simp only [resolve, CfgRegs.withRefReg, ofPort_width_toPort, hin, hout]
  generalize flagsWidth g = wc at hwidth
  subst hwidth
  rfl

/-- Two CFG.SETs that differ in the override of `ref_reg` leave a state and that state with another
`REF_REG`, configured, with the table stores as they stood. -/
theorem exists_cfgSet_withRefReg {poly init xorout : Port} {f g : BitVec 6} {s : State}
    (h : State.Inv s) (hfits : operandTooWide (.cfgSet poly init xorout f) s = false)
    (hlow : f.extractLsb' 0 4 = g.extractLsb' 0 4) :
    ∃ s1 : State, exec (.cfgSet poly init xorout f) s = .next s1 ∧
      exec (.cfgSet poly init xorout g) s = .next (s1.withRefReg (flagsRefReg g)) ∧
      s1.cfgValid = true ∧ s1.cfg.Wf ∧ s1.dense.Wf ∧ s1.compact.Wf := by
  refine ⟨_, exec_cfgSet_of_fits hfits, ?_, rfl, resolve_wf poly init xorout f, h.dense, h.compact⟩
  rw [exec_cfgSet_of_fits ((operandTooWide_congr_flags hlow).trans hfits), resolve_congr_flags hlow]
  rfl

/-! ### The values of the two configurations -/

theorem reflectIf_bne_of_reflectIf {w : Nat} (r r' : Bool) (v : BitVec w) :
    reflectIf (r != r') (reflectIf r v) = reflectIf r' v := by
  simpa using reflectIf_bne_trans false r r' v

section
variable {s : State} (r : Bool)

theorem State.polyVal_withRefReg (h : s.cfg.Wf) :
    (s.withRefReg r).polyVal = reflectIf (s.cfg.refReg != r) s.polyVal := by
  obtain ⟨_, _, _, hpoly, _⟩ := h
  have hval : s.polyVal = reflectIf s.cfg.refReg (ofPort s.w s.cfg.poly) := by
    rw [State.polyVal, hpoly, ofPort_width_toPort]
  rw [hval, reflectIf_bne_of_reflectIf]
  exact ofPort_width_toPort _ _

theorem State.initVal_withRefReg (h : s.cfg.Wf) :
    (s.withRefReg r).initVal = reflectIf (s.cfg.refReg != r) s.initVal := by
  obtain ⟨_, _, _, _, hinit⟩ := h
  have hval : s.initVal = reflectIf s.cfg.refReg (ofPort s.w s.cfg.init) := by
    rw [State.initVal, hinit, ofPort_width_toPort]
  rw [hval, reflectIf_bne_of_reflectIf]
  exact ofPort_width_toPort _ _

theorem State.adaptIn_withRefReg (b : Byte) :
    (s.withRefReg r).adaptIn b = reflectIf (s.cfg.refReg != r) (s.adaptIn b) :=
  (reflectIf_bne_trans s.cfg.refIn s.cfg.refReg r b).symm

/-- The output adapter takes the reflection away. -/
theorem State.adaptOut_withRefReg (v : BitVec s.w) :
    (s.withRefReg r).adaptOut (reflectIf (s.cfg.refReg != r) v) = s.adaptOut v :=
  reflectIf_bne_trans s.cfg.refReg r s.cfg.refOut v

/-- R141: RESC answers the same. -/
theorem State.residueConst_withRefReg (h : s.cfg.Wf) :
    residueConst s.cfg.refIn s.cfg.refOut r (s.withRefReg r).polyVal s.xoroutVal =
      residueConst s.cfg.refIn s.cfg.refOut s.cfg.refReg s.polyVal s.xoroutVal := by
  rw [State.polyVal_withRefReg r h]
  exact residueConst_reflectIf ..

/-- R131: the register after a message is the same, or the reflection when the conventions differ. -/
theorem State.messageReg_withRefReg (h : s.cfg.Wf) (bytes : List Byte) :
    (s.withRefReg r).messageReg bytes = reflectIf (s.cfg.refReg != r) (s.messageReg bytes) := by
  rw [State.messageReg, State.polyVal_withRefReg r h, State.initVal_withRefReg r h]
  exact updateReg_reflectIf _ (State.adaptIn_withRefReg r)
    (stepBit_reflectIf (eight_le_width _) _ _ _) _ _

end

/-! ### One message under both -/

section
variable {k : Strategy} {s : State} {r : Bool} {x x' : ExtTable} (hcfg : s.cfg.Wf)
  (hd : s.dense.Wf) (hc : s.compact.Wf) (hx : k.Matches s x) (hx' : k.Matches (s.withRefReg r) x')
  (bytes : List Byte)
include hcfg hd hc hx hx'

theorem crcVal_withRefReg :
    ((s.withRefReg r).freshAcc.afterBytes k bytes x').crcVal =
      reflectIf (s.cfg.refReg != r) (s.freshAcc.afterBytes k bytes x).crcVal := by
  have hreg := State.crcVal_message_of_matches hd hc hx bytes
  have hreg' := State.crcVal_message_of_matches (s := s.withRefReg r) hd hc hx' bytes
  exact hreg'.trans ((State.messageReg_withRefReg r hcfg bytes).trans
    (congrArg (reflectIf _) hreg.symm))

theorem residueVal_withRefReg :
    ((s.withRefReg r).freshAcc.afterBytes k bytes x').residueVal =
      (s.freshAcc.afterBytes k bytes x).residueVal := by
  rw [State.residueVal, crcVal_withRefReg hcfg hd hc hx hx' bytes]
  exact State.adaptOut_withRefReg r _

theorem finalVal_withRefReg :
    ((s.withRefReg r).freshAcc.afterBytes k bytes x').finalVal =
      (s.freshAcc.afterBytes k bytes x).finalVal := by
  rw [State.finalVal, residueVal_withRefReg hcfg hd hc hx hx' bytes]
  rfl

theorem reversedAt_crc_withRefReg (hne : s.cfg.refReg ≠ r) :
    reversedAt s.w (s.freshAcc.afterBytes k bytes x).crc
      ((s.withRefReg r).freshAcc.afterBytes k bytes x').crc := by
  have hcrc := crcVal_withRefReg hcfg hd hc hx hx' bytes
  rw [bne_iff_ne.2 hne] at hcrc
  rw [State.crc_afterBytes (s.withRefReg r).freshAcc, hcrc]
  exact reversedAt_toPort_rev (width_le_sixtyFour _) _

end

/-! ### The reads that take the results out -/

/-- Equal values are answered alike. -/
theorem success_congr {w : Nat} {u v : BitVec w} (h : u = v) :
    some (Response.mk 0 (toPort u)) = some (Response.mk 0 (toPort v)) := by
  rw [h]

theorem exec_rdResidue_of_valid {s : State} (hcfg : s.cfgValid = true) (hacc : s.accValid = true) :
    exec .rdResidue s = .next (s.respond (toPort s.residueVal)) :=
  (State.requireCfg_of_valid hcfg _).trans (State.requireAcc_of_valid hacc _)

theorem exec_rdFinal_of_valid {s : State} (hcfg : s.cfgValid = true) (hacc : s.accValid = true) :
    exec .rdFinal s = .next (s.respond (toPort s.finalVal)) :=
  (State.requireCfg_of_valid hcfg _).trans (State.requireAcc_of_valid hacc _)

/-- A CALC command's answer does not change what the reads after it answer. -/
theorem exec_rdResidue_answerFinal {s : State} (hcfg : s.cfgValid = true)
    (hacc : s.accValid = true) :
    exec .rdResidue s.answerFinal = .next (s.answerFinal.respond (toPort s.residueVal)) :=
  exec_rdResidue_of_valid (s := s.answerFinal) hcfg hacc

theorem exec_rdFinal_answerFinal {s : State} (hcfg : s.cfgValid = true) (hacc : s.accValid = true) :
    exec .rdFinal s.answerFinal = .next (s.answerFinal.respond (toPort s.finalVal)) :=
  exec_rdFinal_of_valid (s := s.answerFinal) hcfg hacc

theorem exec_resc_of_valid {s : State} (hcfg : s.cfgValid = true) :
    exec .resc s = .next (s.respond (toPort
      (residueConst s.cfg.refIn s.cfg.refOut s.cfg.refReg s.polyVal s.xoroutVal))) :=
  State.requireCfg_of_valid hcfg _

end Sys2Proof.Machine
end

