-- ==== Sys2Proof/Proofs/ByteUpdate.lean ====
section
/-!
PROOFS. The statements of `43_byte_update.md`: what the five UPD commands leave, that the strategies and
the chunks of a message make no difference, and that `REF_REG` is invisible.
-/

namespace Sys2Proof.Proofs

open Sys2Proof.Machine

/-- Settles O32: at width 8 the shift leaves nothing of the register. -/
theorem lookupStepAtWidthEight : Obligations.LookupStepAtWidthEight := stepTab_of_width_eight

/-- Settles O33: rounds are linear, and the register without the byte that leaves it only shifts. -/
theorem byteStepsAgree : Obligations.ByteStepsAgree := fun wc r poly reg b => by
  rw [stepBit_eq_stepTab (eight_le_width wc)]

/-- Settles O29: the bit-serial strategy of the common form, and the two violations before it. -/
theorem updBitResult : Obligations.UpdBitResult := by
  refine ⟨fun _ => rfl, fun s bytes => ⟨fun hcfg hacc => ?_, ?_, ?_⟩⟩
  · rw [State.feed_eq]
    exact exec_upd_of_valid (k := .bit) (xt := .zero) bytes hcfg hacc nofun
  · exact exec_upd_of_unconfigured (k := .bit) (xt := .zero) bytes
  · exact exec_upd_of_unloaded (k := .bit) (xt := .zero) bytes

/-- Settles O30: the store made current holds the table of the key, so a lookup in it is an entry of
the key, or the XOR of a row and a column entry. -/
theorem updInternalTableResult : Obligations.UpdInternalTableResult := by
  refine ⟨fun _ => ⟨rfl, rfl⟩, fun s bytes => ⟨fun h hcfg hacc => ⟨?_, ?_⟩, ?_, ?_⟩⟩
  · refine ⟨s.withDense.dense, State.withDense_madeCurrent h.dense, ?_⟩
    rw [State.feed_lookupStep, ← State.look_withDense h.dense]
    exact exec_upd_of_valid (k := .t256) (xt := .zero) bytes hcfg hacc nofun
  · refine ⟨s.withCompact.compact, State.withCompact_madeCurrent h.compact, ?_⟩
    rw [State.feed_lookupStep, ← State.look_withCompact h.compact]
    exact exec_upd_of_valid (k := .t16) (xt := .zero) bytes hcfg hacc nofun
  · exact fun hcfg => ⟨exec_upd_of_unconfigured (k := .t256) (xt := .zero) bytes hcfg,
      exec_upd_of_unconfigured (k := .t16) (xt := .zero) bytes hcfg⟩
  · exact fun hcfg hacc => ⟨exec_upd_of_unloaded (k := .t256) (xt := .zero) bytes hcfg hacc,
      exec_upd_of_unloaded (k := .t16) (xt := .zero) bytes hcfg hacc⟩

/-- The three violations of an UPD command that reads an external table, in their order. -/
theorem external_violations {k : Strategy} (hk : k.external = true) (s : State) (bytes : List Byte)
    (xt : ExtTable) :
    (s.cfgValid = false → exec (k.upd bytes xt) s = .next (s.violate .notConfigured)) ∧
    (s.cfgValid = true → s.accValid = false →
      exec (k.upd bytes xt) s = .next (s.violate .accNotLoaded)) ∧
    (s.cfgValid = true → s.accValid = true → xt.wc ≠ s.cfg.wc →
      exec (k.upd bytes xt) s = .next (s.violate .extTableWidth)) :=
  ⟨exec_upd_of_unconfigured bytes, exec_upd_of_unloaded bytes,
    fun hcfg hacc => exec_upd_of_otherWidth bytes hcfg hacc hk⟩

/-- Settles O31: the external strategies of the common form; nothing is asked of the table's entries. -/
theorem updExternalTableResult : Obligations.UpdExternalTableResult := by
  refine ⟨fun _ => ⟨rfl, rfl⟩, fun s bytes xt => ⟨fun hcfg hacc hxt => ⟨?_, ?_⟩, ?_⟩⟩
  · rw [State.feed_lookupStep]
    exact exec_upd_of_valid (k := .x256) bytes hcfg hacc fun _ => hxt
  · rw [State.feed_lookupStep, ← xtLook_eq]
    exact exec_upd_of_valid (k := .x16) bytes hcfg hacc fun _ => hxt
  · simp only [List.forall_mem_cons, List.not_mem_nil, false_implies, implies_true, and_true]
    exact ⟨external_violations (k := .x256) rfl s bytes xt,
      external_violations (k := .x16) rfl s bytes xt⟩

/-- Settles O34: each strategy whose table matches takes the bit-serial step, and what it writes leaves
the premises standing for the next. -/
theorem strategiesAreEquivalent : Obligations.StrategiesAreEquivalent := by
  intro s h hcfg hacc
  refine ⟨fun bytes => ⟨toPort (s.regAfter bytes), fun k xt hk => ?_⟩, ?_⟩
  · exact ⟨_, exec_upd_of_valid bytes hcfg hacc hk.width,
      State.crc_afterBytes_of_matches h.dense h.compact hk bytes, rfl⟩
  · intro k k' k'' first second xt xt' xt'' hk hk' hk''
    have hnext := hk'.afterBytes (k := k) (xt := xt) first
    refine ⟨_, _, _, exec_upd_of_valid first hcfg hacc hk.width,
      exec_upd_of_valid second hcfg hacc hnext.width,
      exec_upd_of_valid (first ++ second) hcfg hacc hk''.width, ?_⟩
    calc State.crc (State.afterBytes _ k' second xt')
      _ = toPort (State.regAfter _ second) :=
        State.crc_afterBytes_of_matches (Strategy.denseAfter_wf h.dense k)
          (Strategy.compactAfter_wf h.compact k) hnext second
      _ = toPort (s.regAfter (first ++ second)) :=
        congrArg toPort (State.regAfter_afterBytes h.dense h.compact hk first second)
      _ = (s.afterBytes k'' (first ++ second) xt'').crc :=
        (State.crc_afterBytes_of_matches h.dense h.compact hk'' _).symm

/-- Settles O35: the second run finds the register, and the store, as the first left them. -/
theorem chunkingChangesNothing : Obligations.ChunkingChangesNothing := by
  intro k s first second xt hcfg hacc hxt
  refine ⟨_, _, exec_upd_of_valid first hcfg hacc hxt, exec_upd_of_valid second hcfg hacc hxt, ?_⟩
  rw [State.afterBytes_append]
  exact exec_upd_of_valid (first ++ second) hcfg hacc hxt

/-- Settles O36: over no bytes the common form writes `CRC` back and still makes the store current; its
checks do not look at the range. -/
theorem emptyRangeKeepsCrc : Obligations.EmptyRangeKeepsCrc := by
  intro k s xt
  refine ⟨fun h hcfg hacc hxt => ?_, exec_upd_of_unconfigured [], exec_upd_of_unloaded [],
    exec_upd_of_otherWidth []⟩
  refine ⟨_, exec_upd_of_valid [] hcfg hacc hxt, toPort_ofPort (h.acc hacc), rfl, ?_, ?_⟩
  · rintro rfl
    exact s.withDense_current
  · rintro rfl
    exact s.withCompact_current

/-- Settles O37: the second configuration is the first with another `REF_REG`, and what the adapters at
either end leave of the difference is the raw register. -/
theorem refRegIsInvisible : Obligations.RefRegIsInvisible := by
  intro s poly init xorout f g h hfits hlow
  obtain ⟨s1, hset, hset', hvalid, hcfg, hd, hc⟩ := exists_cfgSet_withRefReg h hfits hlow
  refine ⟨_, _, _, _, hset, hset', exec_resc_of_valid hvalid, exec_resc_of_valid hvalid,
    ?_, fun k bytes x1 x2 hx1 hx2 => ?_⟩
  · exact success_congr (State.residueConst_withRefReg (flagsRefReg g) hcfg).symm
  · have hresidue := residueVal_withRefReg hcfg hd hc hx1 hx2 bytes
    have hfinal := finalVal_withRefReg hcfg hd hc hx1 hx2 bytes
    refine ⟨_, _, _, _, _, _, exec_calc_of_valid bytes hvalid hx1.width,
      exec_calc_of_valid bytes hvalid hx2.width, ?_,
      exec_rdResidue_answerFinal hvalid rfl, exec_rdResidue_answerFinal hvalid rfl, ?_,
      exec_rdFinal_answerFinal hvalid rfl, exec_rdFinal_answerFinal hvalid rfl, ?_, ?_⟩
    · exact success_congr hfinal.symm
    · exact success_congr hresidue.symm
    · exact success_congr hfinal.symm
    · exact reversedAt_crc_withRefReg hcfg hd hc hx1 hx2 bytes

end Sys2Proof.Proofs
end

