-- ==== Sys2Proof/Proofs/Codeword.lean ====
section
/-!
PROOFS. What the residue calculator's rounds mean (`44_residue.md` R136, R139): `w` rounds are `w / 8`
zero bytes through the byte step; and the `w / 8` bytes of a word, fed in the order in which they leave
the register, are the word XORed in at once before `w` rounds. So the codeword of a message, its
checksum's bytes in the order of `20_memory.md` R52, cancels the register.
-/

namespace Sys2Proof.Machine

/-! ### Zero bytes (`44_residue.md` R136) -/

theorem stepBit_zero {w : Nat} (r : Bool) (poly reg : BitVec w) :
    stepBit r poly reg 0 = rounds r reg poly 8 := by
  have hload : loadByte w r 0 = 0#w := loadByte_zero w r
  rw [stepBit, hload, BitVec.xor_zero]

theorem foldl_stepBit_zeros {w : Nat} (r : Bool) (poly reg : BitVec w) (n : Nat) :
    (List.replicate n (0 : Byte)).foldl (stepBit r poly) reg = rounds r reg poly (8 * n) := by
  induction n generalizing reg with
  | zero => rfl
  | succ n ih =>
    rw [List.replicate_succ, List.foldl_cons, stepBit_zero, ih, ← rounds_add, Nat.mul_succ,
      Nat.add_comm]

theorem mul_width_div_eight (wc : WidthCode) : 8 * (width wc / 8) = width wc := by
  revert wc; decide

/-- The lookup of a row and a column entry, too, is the bit-serial step. -/
theorem stepTab_masks {w : Nat} (hw : 8 ≤ w) (r : Bool) (poly : BitVec w) :
    stepTab r (fun i => tableEntry r poly (i &&& 0x0F) ^^^ tableEntry r poly (i &&& 0xF0)) =
      stepBit r poly := by
  rw [stepBit_eq_stepTab hw]
  simp only [tableEntry_masks]

/-! ### The bytes of a word (`44_residue.md` R139) -/

/-- A word with its first `n` bytes gone, in the order in which they leave the register. -/
def dropBytes {w : Nat} (r : Bool) (v : BitVec w) (n : Nat) : BitVec w :=
  if r then v >>> (8 * n) else v <<< (8 * n)

/-- The first `n` bytes of a word, in the order in which they leave the register. -/
def takeBytes {w : Nat} (r : Bool) (v : BitVec w) (n : Nat) : List Byte :=
  (List.range n).map fun k => tableIndex r (dropBytes r v k) 0

theorem takeBytes_succ {w : Nat} (r : Bool) (v : BitVec w) (n : Nat) :
    takeBytes r v (n + 1) = takeBytes r v n ++ [tableIndex r (dropBytes r v n) 0] := by
  simp [takeBytes, List.range_succ]

@[simp] theorem dropBytes_zero {w : Nat} (r : Bool) (v : BitVec w) : dropBytes r v 0 = v := by
  cases r <;> simp [dropBytes]

theorem dropBytes_succ {w : Nat} (r : Bool) (v : BitVec w) (n : Nat) :
    dropBytes r v (n + 1) = if r then dropBytes r v n >>> 8 else dropBytes r v n <<< 8 := by
  cases r
  · exact BitVec.shiftLeft_add ..
  · exact BitVec.shiftRight_add ..

theorem dropBytes_of_le {w n : Nat} (h : w ≤ 8 * n) (r : Bool) (v : BitVec w) :
    dropBytes r v n = 0#w := by
  cases r
  · exact BitVec.shiftLeft_eq_zero h
  · exact BitVec.ushiftRight_eq_zero h

theorem xor_xor_xor_cancel_right {w : Nat} (a b c : BitVec w) : a ^^^ c ^^^ (b ^^^ c) = a ^^^ b := by
  rw [BitVec.xor_comm b, BitVec.xor_assoc, ← BitVec.xor_assoc c, BitVec.xor_self, BitVec.zero_xor]

/-- A byte may be XORed in before the rounds that bring its place to the end of the register: the
register after `n` bytes of a word, XOR the rest of the word, is what `8 * n` rounds make of the
register with the whole word XORed in. -/
theorem foldl_takeBytes_xor_dropBytes {w : Nat} (hw : 8 ≤ w) (r : Bool) (poly reg v : BitVec w)
    (n : Nat) :
    (takeBytes r v n).foldl (stepBit r poly) reg ^^^ dropBytes r v n =
      rounds r (reg ^^^ v) poly (8 * n) := by
  induction n with
  | zero => simp [takeBytes]
  | succ n ih =>
    have hfed : (takeBytes r v (n + 1)).foldl (stepBit r poly) reg =
        stepBit r poly ((takeBytes r v n).foldl (stepBit r poly) reg)
          (tableIndex r (dropBytes r v n) 0) := by
      rw [takeBytes_succ, List.foldl_append, List.foldl_cons, List.foldl_nil]
    have hrest : dropBytes r v (n + 1) =
        rounds r (dropBytes r v n ^^^ loadByte w r (tableIndex r (dropBytes r v n) 0)) poly 8 := by
      rw [rounds_without_index_byte hw, dropBytes_succ]
    rw [hfed, hrest, stepBit, ← rounds_xor, xor_xor_xor_cancel_right, ih, ← rounds_add,
      Nat.mul_succ]

theorem foldl_takeBytes_all {w n : Nat} (hw : 8 ≤ w) (hn : 8 * n = w) (r : Bool)
    (poly reg v : BitVec w) :
    (takeBytes r v n).foldl (stepBit r poly) reg = rounds r (reg ^^^ v) poly w := by
  have h := foldl_takeBytes_xor_dropBytes hw r poly reg v n
  rwa [dropBytes_of_le hn.ge, BitVec.xor_zero, hn] at h

/-! ### The bytes of a checksum (`20_memory.md` R52) -/

theorem tableIndex_dropBytes_true {w : Nat} (hw : w ≤ 64) (v : BitVec w) (k : Nat) :
    tableIndex true (dropBytes true v k) 0 = (toPort v).extractLsb' (8 * k) 8 := by
  apply BitVec.eq_of_getLsbD_eq
  intro j hj
  rw [BitVec.getLsbD_extractLsb', getLsbD_toPort hw]
  simp [tableIndex, dropBytes, hj]

theorem tableIndex_dropBytes_false {w n k : Nat} (hw : w ≤ 64) (hn : 8 * n = w) (hk : k < n)
    (v : BitVec w) :
    tableIndex false (dropBytes false v k) 0 = (toPort v).extractLsb' (8 * (n - 1 - k)) 8 := by
  apply BitVec.eq_of_getLsbD_eq
  intro j hj
  have hlt : w - 8 + j < w := by omega
  have hge : ¬ w - 8 + j < 8 * k := by omega
  have hpos : w - 8 + j - 8 * k = 8 * (n - 1 - k) + j := by omega
  rw [BitVec.getLsbD_extractLsb', getLsbD_toPort hw]
  simp [tableIndex, dropBytes, hj, hlt, hge, hpos, -BitVec.getLsbD_eq_getElem]

theorem checksumBytes_toPort {w n : Nat} (hw : w ≤ 64) (hn : 8 * n = w) (r : Bool) (v : BitVec w) :
    checksumBytes w (toPort v) r = takeBytes r v n := by
  have hcount : w / 8 = n := by omega
  rw [checksumBytes, takeBytes, hcount]
  cases r
  · apply List.ext_getElem
    · simp
    · intro k hk _
      have hlt : k < n := by simpa using hk
      simpa using (tableIndex_dropBytes_false hw hn hlt v).symm
  · exact List.map_congr_left fun k _ => (tableIndex_dropBytes_true hw v k).symm

/-! ### A codeword (`44_residue.md` R139) -/

theorem reflectIf_bne_cancel {w : Nat} (a b : Bool) (v : BitVec w) :
    reflectIf (a != b) (reflectIf (b != a) v) = v := by
  simpa using reflectIf_bne_trans b a b v

/-- The bytes of a word in the order of one convention, each adapted to the other, are the reflected
word XORed in before `w` rounds. -/
theorem updateReg_checksumBytes (wc : WidthCode) (f r : Bool) (poly reg v : BitVec (width wc)) :
    updateReg (stepBit r poly) (reflectIf (f != r)) reg
        (checksumBytes (width wc) (toPort v) f) =
      rounds r (reg ^^^ reflectIf (f != r) v) poly (width wc) := by
  have hstep : ∀ (u : BitVec (width wc)) (b : Byte),
      stepBit r poly (reflectIf (f != r) u) (reflectIf (f != r) b) =
        reflectIf (f != r) (stepBit f (reflectIf (r != f) poly) u b) := fun u b => by
    rw [← stepBit_reflectIf (eight_le_width wc), reflectIf_bne_cancel]
  calc updateReg (stepBit r poly) (reflectIf (f != r)) reg
          (checksumBytes (width wc) (toPort v) f)
    _ = updateReg (stepBit r poly) (reflectIf (f != r))
          (reflectIf (f != r) (reflectIf (r != f) reg)) (takeBytes f v (width wc / 8)) := by
      rw [reflectIf_bne_cancel,
        checksumBytes_toPort (width_le_sixtyFour wc) (mul_width_div_eight wc)]
    _ = reflectIf (f != r) (updateReg (stepBit f (reflectIf (r != f) poly)) id
          (reflectIf (r != f) reg) (takeBytes f v (width wc / 8))) :=
      updateReg_reflectIf _ (fun _ => rfl) hstep _ _
    _ = reflectIf (f != r) (rounds f (reflectIf (r != f) reg ^^^ v) (reflectIf (r != f) poly)
          (width wc)) :=
      congrArg _ (foldl_takeBytes_all (eight_le_width wc) (mul_width_div_eight wc) f _ _ v)
    _ = rounds r (reg ^^^ reflectIf (f != r) v) poly (width wc) := by
      rw [← rounds_reflectIf, reflectIf_xor, reflectIf_bne_cancel, reflectIf_bne_cancel]

/-- The register after a message and the bytes of a word in the order `REF_IN` implies. -/
theorem State.messageReg_codeword (s : State) (data : List Byte) (v : BitVec s.w) :
    s.messageReg (data ++ checksumBytes s.w (toPort v) s.cfg.refIn) =
      rounds s.cfg.refReg (s.messageReg data ^^^ reflectIf (s.cfg.refIn != s.cfg.refReg) v)
        s.polyVal s.w := by
  rw [State.messageReg, updateReg_append]
  exact updateReg_checksumBytes s.cfg.wc _ _ _ _ v

/-- With `REF_IN = REF_OUT` the checksum cancels the register, and only `XOROUT` goes through the
rounds: the register after a codeword does not depend on the data. -/
theorem State.messageReg_final {s : State} (hrefl : s.cfg.refIn = s.cfg.refOut) (data : List Byte) :
    s.messageReg (data ++ checksumBytes s.w
        (toPort (s.adaptOut (s.messageReg data) ^^^ s.xoroutVal)) s.cfg.refIn) =
      rounds s.cfg.refReg (reflectIf (s.cfg.refReg != s.cfg.refOut) s.xoroutVal) s.polyVal s.w := by
  have hback : reflectIf (s.cfg.refOut != s.cfg.refReg) (s.adaptOut (s.messageReg data)) =
      s.messageReg data := reflectIf_bne_cancel ..
  rw [State.messageReg_codeword, hrefl, reflectIf_xor, hback, ← BitVec.xor_assoc, BitVec.xor_self,
    BitVec.zero_xor, bne_comm]

/-- RD.RESIDUE after a codeword applies RESC's second reflection. -/
theorem State.adaptOut_messageReg_final {s : State} (hrefl : s.cfg.refIn = s.cfg.refOut)
    (data : List Byte) :
    s.adaptOut (s.messageReg (data ++ checksumBytes s.w
        (toPort (s.adaptOut (s.messageReg data) ^^^ s.xoroutVal)) s.cfg.refIn)) =
      residueConst s.cfg.refIn s.cfg.refOut s.cfg.refReg s.polyVal s.xoroutVal := by
  rw [State.messageReg_final hrefl, State.adaptOut, residueConst, hrefl]

/-! ### The commands -/

/-- The condition of an adapter, as the rules write it. -/
theorem reflectIf_bne {w : Nat} (a b : Bool) (v : BitVec w) :
    reflectIf (a != b) v = if a = b then v else v.reverse := by
  cases a <;> cases b <;> rfl

theorem exec_accInit_of_valid {s : State} (hcfg : s.cfgValid = true) :
    exec .accInit s = .next (s.freshAcc.respond 0) :=
  State.requireCfg_of_valid hcfg _

section
variable {k : Strategy} {s : State} {xt : ExtTable} (hd : s.dense.Wf) (hc : s.compact.Wf)
  (hk : k.Matches s xt) (bytes : List Byte)
include hd hc hk

/-- What RD.RESIDUE reads after ACC.INIT and a message. -/
theorem State.residueVal_message_of_matches :
    ((s.freshAcc.respond 0).afterBytes k bytes xt).residueVal = s.adaptOut (s.messageReg bytes) :=
  congrArg s.adaptOut (State.crcVal_message_of_matches hd hc hk bytes)

/-- What a CALC command answers. -/
theorem State.finalVal_message_of_matches :
    (s.freshAcc.afterBytes k bytes xt).finalVal =
      s.adaptOut (s.messageReg bytes) ^^^ s.xoroutVal :=
  congrArg (fun v => s.adaptOut v ^^^ s.xoroutVal) (State.crcVal_message_of_matches hd hc hk bytes)

end

end Sys2Proof.Machine
end

