-- ==== Sys2Proof/Proofs/Residue.lean ====
section
/-!
PROOFS. The statements of `44_residue.md`: the residue constant RESC answers, its rounds by bytes, and
the round trip of a codeword.
-/

namespace Sys2Proof.Proofs

open Sys2Proof.Machine

/-- Settles O42: RESC is the check of the configuration before the answer, and its two conditional
reflections are the rule's two. -/
theorem rescResult : Obligations.RescResult := by
  refine ⟨fun _ => rfl, fun s => ⟨fun hcfg => ?_, fun hcfg => State.requireCfg_of_invalid hcfg _⟩⟩
  simp only [← reflectIf_bne, ← width_eq_mul]
  exact exec_resc_of_valid hcfg

/-- Settles O43: a zero byte leaves the register as it is before its eight rounds, and the lookup steps
are the bit-serial step. -/
theorem rescRoundsAreZeroBytes : Obligations.RescRoundsAreZeroBytes := by
  intro wc r poly v0
  have hbit : rounds r v0 poly (width wc) =
      (List.replicate (width wc / 8) (0 : Byte)).foldl (stepBit r poly) v0 := by
    rw [foldl_stepBit_zeros, mul_width_div_eight]
  refine ⟨hbit, ?_, ?_⟩
  · rw [← stepBit_eq_stepTab (eight_le_width wc)]
    exact hbit
  · rw [stepTab_masks (eight_le_width wc)]
    exact hbit

/-- Settles O45: every strategy's register is the message's register, and that of a codeword is the
`w` rounds of the reflected `XOROUT`, whatever the data. -/
theorem residueRoundTrip : Obligations.ResidueRoundTrip := by
  intro k s data xt h hcfg hrefl hk
  have hfinal := State.finalVal_message_of_matches h.dense h.compact hk data
  have hanswer : (s.freshAcc.afterBytes k data xt).answerFinal.resp =
      some ⟨0, toPort (s.adaptOut (s.messageReg data) ^^^ s.xoroutVal)⟩ :=
    success_congr hfinal
  refine ⟨_, _, _, _, _, _, exec_calc_of_valid data hcfg hk.width, hanswer,
    exec_accInit_of_valid hcfg, exec_upd_of_valid _ hcfg rfl hk.width,
    exec_rdResidue_of_valid hcfg rfl, exec_resc_of_valid hcfg, ?_⟩
  exact success_congr ((State.residueVal_message_of_matches h.dense h.compact hk _).trans
    (State.adaptOut_messageReg_final hrefl data))

end Sys2Proof.Proofs
end

