-- ==== Sys2Proof/Proofs/ConfiguredValues.lean ====
section
/-!
PROOFS. The values of a consistent configuration and of a loaded accumulator on 64-bit ports
(`10_state.md` R22, R23, R26): the containers hold them exactly, CFG.SET writes its operands as they
stand, and the key of the tables is read off the registers. Then the commands of
`45_accumulator_commands.md` on the two sides of their checks.
-/

namespace Sys2Proof.Machine

/-! ### Values in their containers -/

theorem State.toPort_initVal {s : State} (h : s.cfg.Wf) : toPort s.initVal = s.cfg.actualInit := by
  obtain ⟨_, _, _, _, hinit⟩ := h
  rw [State.initVal, hinit, ofPort_width_toPort]

theorem State.toPort_polyVal {s : State} (h : s.cfg.Wf) : toPort s.polyVal = s.cfg.actualPoly := by
  obtain ⟨_, _, _, hpoly, _⟩ := h
  rw [State.polyVal, hpoly, ofPort_width_toPort]

theorem State.toPort_xoroutVal {s : State} (h : s.cfg.Wf) : toPort s.xoroutVal = s.cfg.xorout := by
  obtain ⟨_, _, hxorout, _, _⟩ := h
  exact toPort_ofPort hxorout

theorem State.toPort_crcVal {s : State} (h : State.Inv s) (hacc : s.accValid = true) :
    toPort s.crcVal = s.crc :=
  toPort_ofPort (h.acc hacc)

/-- The output adapter on ports: the register as it is, or its reversal bit by bit
(`45_accumulator_commands.md` R151). -/
theorem State.toPort_residueVal {s : State} (h : State.Inv s) (hacc : s.accValid = true) :
    if s.cfg.refReg = s.cfg.refOut then toPort s.residueVal = s.crc
    else reversedAt s.w s.crc (toPort s.residueVal) := by
  rw [State.residueVal, State.adaptOut, reflectIf_bne]
  split
  · exact s.toPort_crcVal h hacc
  · exact reversedAt_toPort_rev (width_le_sixtyFour _) s.crc

/-- The checksum is the residue XOR `XOROUT`, which no adapter touches (R152, R153). -/
theorem State.toPort_finalVal {s : State} (h : s.cfg.Wf) :
    toPort s.finalVal = toPort s.residueVal ^^^ s.cfg.xorout := by
  rw [State.finalVal, toPort_xor, State.toPort_xoroutVal h]

/-! ### The key of the tables (`10_state.md` R30) -/

theorem TableKey.eq_iff (a b : TableKey) :
    a = b ↔ b.wc = a.wc ∧ b.poly = a.poly ∧ b.refReg = a.refReg := by
  cases a
  cases b
  rw [TableKey.mk.injEq]
  constructor <;> exact fun ⟨hwc, hpoly, hreg⟩ => ⟨hwc.symm, hpoly.symm, hreg.symm⟩

/-- Under a consistent configuration the key is the triple of the registers as they stand. -/
theorem State.eq_key_iff {s : State} (h : s.cfg.Wf) (tag : TableKey) :
    tag = s.key ↔
      s.cfg.wc = tag.wc ∧ s.cfg.actualPoly = tag.poly ∧ s.cfg.refReg = tag.refReg := by
  rw [TableKey.eq_iff, State.key_poly, State.toPort_polyVal h, State.key_wc, State.key_refReg]

/-! ### CFG.SET (R145) -/

theorem flagsWidth_eq (f : BitVec 6) : flagsWidth f = BitVec.ofNat 2 (f.toNat % 4) := by
  revert f; decide

/-- A chain of range checks fails where one of them does: at this one, or after it. -/
theorem State.requireFits_of_le_or (s : State) {n : Nat} {a : Port} {k : Result}
    (h : 2 ^ n ≤ a.toNat ∨ k = .next (s.violate .operandRange)) :
    s.requireFits n a k = .next (s.violate .operandRange) := by
  obtain ⟨_, hpass⟩ | ⟨_, hstop⟩ := s.requireFits_cases n a k
  · exact hpass.trans (h.resolve_left (by omega))
  · exact hstop

/-- A derived register of CFG.SET: the operand, reflected at the width the flags select when they
give `REF_REG` = 1 (`10_state.md` R23). -/
def derivedReg (f : BitVec 6) (v : Port) : Port :=
  toPort (reflectIf (flagsRefReg f) (ofPort (width (flagsWidth f)) v))

theorem derivedReg_of_refReg {f : BitVec 6} (hreg : flagsRefReg f = true) (v : Port) :
    reversedAt (8 * 2 ^ (f.toNat % 4)) v (derivedReg f v) := by
  rw [derivedReg, hreg, reflectIf_true, ← width_flagsWidth]
  exact reversedAt_toPort_rev (width_le_sixtyFour _) v

theorem derivedReg_of_not_refReg {f : BitVec 6} (hreg : flagsRefReg f = false) {v : Port}
    (hv : v.toNat < 2 ^ (8 * 2 ^ (f.toNat % 4))) : derivedReg f v = v := by
  rw [← width_flagsWidth] at hv
  rw [derivedReg, hreg, reflectIf_false, toPort_ofPort ((fits_iff _ _).2 hv)]

section
variable {poly init xorout : Port} {f : BitVec 6}

/-- Operands in range are written as they stand. -/
theorem resolve_of_lt (hpoly : poly.toNat < 2 ^ (8 * 2 ^ (f.toNat % 4)))
    (hinit : init.toNat < 2 ^ (8 * 2 ^ (f.toNat % 4)))
    (hxorout : xorout.toNat < 2 ^ (8 * 2 ^ (f.toNat % 4))) :
    resolve poly init xorout f =
      ⟨BitVec.ofNat 2 (f.toNat % 4), poly, init, xorout, flagsRefIn f, flagsRefOut f, flagsRefReg f,
        derivedReg f poly, derivedReg f init⟩ := by
  rw [← width_flagsWidth, ← fits_iff] at hpoly hinit hxorout
  rw [resolve, toPort_ofPort hpoly, toPort_ofPort hinit, toPort_ofPort hxorout, ← flagsWidth_eq]
  rfl

theorem operandTooWide_cfgSet_eq_false (s : State)
    (hpoly : poly.toNat < 2 ^ (8 * 2 ^ (f.toNat % 4)))
    (hinit : init.toNat < 2 ^ (8 * 2 ^ (f.toNat % 4)))
    (hxorout : xorout.toNat < 2 ^ (8 * 2 ^ (f.toNat % 4))) :
    operandTooWide (.cfgSet poly init xorout f) s = false := by
  simp only [operandTooWide, Bool.or_eq_false_iff, decide_eq_false_iff_not, Nat.not_le]
  exact ⟨⟨hpoly, hinit⟩, hxorout⟩

theorem exec_cfgSet_of_tooWide (s : State)
    (h : 2 ^ (8 * 2 ^ (f.toNat % 4)) ≤ poly.toNat ∨ 2 ^ (8 * 2 ^ (f.toNat % 4)) ≤ init.toNat ∨
      2 ^ (8 * 2 ^ (f.toNat % 4)) ≤ xorout.toNat) :
    exec (.cfgSet poly init xorout f) s = .next (s.violate .operandRange) := by
  simp only [← width_flagsWidth] at h
  exact s.requireFits_of_le_or (h.imp_right fun h =>
    s.requireFits_of_le_or (h.imp_right fun h => s.requireFits_of_le h _))

end

/-! ### The accumulator and its reads -/

theorem exec_accLoad_of_lt {s : State} (hcfg : s.cfgValid = true) {a : Port}
    (ha : a.toNat < 2 ^ s.w) :
    exec (.accLoad a) s = .next ((s.loadAcc (ofPort s.w a)).respond 0) :=
  (State.requireCfg_of_valid hcfg _).trans (s.requireFits_of_lt ha _)

theorem exec_accLoad_of_le {s : State} (hcfg : s.cfgValid = true) {a : Port}
    (ha : 2 ^ s.w ≤ a.toNat) : exec (.accLoad a) s = .next (s.violate .operandRange) :=
  (State.requireCfg_of_valid hcfg _).trans (s.requireFits_of_le ha _)

theorem exec_rdInterim_of_valid {s : State} (hcfg : s.cfgValid = true) (hacc : s.accValid = true) :
    exec .rdInterim s = .next (s.respond (toPort s.crcVal)) :=
  (State.requireCfg_of_valid hcfg _).trans (State.requireAcc_of_valid hacc _)

/-- The two violations of a command that reads the accumulator, in their order
(`60_exceptions.md` R179). -/
theorem accumulatorRead_violations (s : State) (r : Result) :
    (s.cfgValid = false → s.requireCfg (s.requireAcc r) = .next (s.violate .notConfigured)) ∧
    (s.cfgValid = true → s.accValid = false →
      s.requireCfg (s.requireAcc r) = .next (s.violate .accNotLoaded)) :=
  ⟨fun hcfg => State.requireCfg_of_invalid hcfg _, fun hcfg hacc =>
    (State.requireCfg_of_valid hcfg _).trans (State.requireAcc_of_invalid hacc _)⟩

/-! ### CALC.s (R157) -/

section
variable {k : Strategy} {s : State} {xt : ExtTable} (bytes : List Byte)

theorem exec_calc_of_unconfigured (hcfg : s.cfgValid = false) :
    exec (k.calc bytes xt) s = .next (s.violate .notConfigured) := by
  rw [exec_calc, State.requireCfg_of_invalid hcfg]

theorem exec_calc_of_otherWidth (hcfg : s.cfgValid = true) (hk : k.external = true)
    (hxt : xt.wc ≠ s.cfg.wc) :
    exec (k.calc bytes xt) s = .next (s.violate .extTableWidth) := by
  rw [exec_calc, State.requireCfg_of_valid hcfg, Strategy.requireTable_of_ne hk hxt]

end

/-- The responses between the three commands leave no trace in the last one's state. -/
theorem State.answerFinal_respond_afterBytes_respond (s : State) (u v : Port) (k : Strategy)
    (bytes : List Byte) (xt : ExtTable) :
    (((s.respond u).afterBytes k bytes xt).respond v).answerFinal =
      (s.afterBytes k bytes xt).answerFinal := by
  cases k <;> rfl

end Sys2Proof.Machine
end

