-- ==== Sys2Proof/Proofs/AccumulatorCommands.lean ====
section
/-!
PROOFS. The statements of `45_accumulator_commands.md`: what CFG.SET, ACC.INIT, ACC.LOAD and the
reads leave and answer, and that CALC.s is three commands in one.
-/

namespace Sys2Proof.Proofs

open Sys2Proof.Machine

/-- Settles O14: operands in range pass the three checks and are written as they stand; one out of
range fails one of the checks, all before any write. -/
theorem cfgSetInstallsConfiguration : Obligations.CfgSetInstallsConfiguration := by
  refine ⟨fun _ => rfl, fun s poly init xorout f => ⟨?_, exec_cfgSet_of_tooWide s⟩⟩
  rintro ⟨hpoly, hinit, hxorout⟩
  refine ⟨derivedReg f poly, derivedReg f init, ?_, ?_⟩
  · change if flagsRefReg f = true then _ else _
    split
    · next hreg => exact ⟨derivedReg_of_refReg hreg poly, derivedReg_of_refReg hreg init⟩
    · next hreg =>
      have hreg' : flagsRefReg f = false := Bool.eq_false_of_not_eq_true hreg
      exact ⟨derivedReg_of_not_refReg hreg' hpoly, derivedReg_of_not_refReg hreg' hinit⟩
  · rw [exec_cfgSet_of_fits (operandTooWide_cfgSet_eq_false s hpoly hinit hxorout),
      resolve_of_lt hpoly hinit hxorout]
    rfl

/-- Settles O15: CFG.SET writes neither store, and the configuration it leaves is consistent, so its
key is the triple of the registers. -/
theorem cfgSetKeepsTableStores : Obligations.CfgSetKeepsTableStores := by
  intro s poly init xorout f hfits
  refine ⟨_, exec_cfgSet_of_fits hfits, rfl, rfl, ?_, ?_⟩
  · rw [State.denseCurrent_iff, State.eq_key_iff (resolve_wf poly init xorout f)]
    rfl
  · rw [State.compactCurrent_iff, State.eq_key_iff (resolve_wf poly init xorout f)]
    rfl

/-- Settles O27: a value that fits is the same value in the container. -/
theorem accLoadLoadsRaw : Obligations.AccLoadLoadsRaw := by
  refine ⟨fun _ => rfl, fun s a => ?_⟩
  rw [← width_eq_mul]
  refine ⟨fun hcfg ha => ?_, fun hcfg ha => exec_accLoad_of_le hcfg ha,
    fun hcfg => State.requireCfg_of_invalid hcfg _⟩
  have hraw : toPort (ofPort s.w a) = a := toPort_ofPort ((fits_iff _ _).2 ha)
  rw [exec_accLoad_of_lt hcfg ha, State.loadAcc, hraw]
  rfl

/-- Settles O38: each read is the two checks before an answer, and under the invariant the values it
answers stand in their containers. -/
theorem accumulatorReads : Obligations.AccumulatorReads := by
  refine ⟨fun _ => ⟨rfl, rfl, rfl⟩, fun s => ⟨fun h hcfg hacc => ?_, ?_⟩⟩
  · refine ⟨toPort s.residueVal, s.toPort_residueVal h hacc, ?_,
      exec_rdResidue_of_valid hcfg hacc, ?_⟩
    · rw [exec_rdInterim_of_valid hcfg hacc, s.toPort_crcVal h hacc]
      rfl
    · rw [exec_rdFinal_of_valid hcfg hacc, s.toPort_finalVal (h.cfg hcfg)]
      rfl
  · simp only [List.forall_mem_cons, List.not_mem_nil, false_implies, implies_true, and_true]
    exact ⟨accumulatorRead_violations s _, accumulatorRead_violations s _,
      accumulatorRead_violations s _⟩

/-- Settles O39: the store made current holds the table of the present key, and the reads go to
it. -/
theorem tableReads : Obligations.TableReads := by
  refine ⟨fun _ => ⟨rfl, rfl, rfl⟩, fun s idx => ⟨fun h hcfg => ⟨?_, fun hidx => ?_⟩, ?_, ?_⟩⟩
  · exact ⟨s.withDense.dense, State.withDense_madeCurrent h.dense, exec_rdT256 hcfg h.dense idx⟩
  · exact ⟨s.withCompact.compact, State.withCompact_madeCurrent h.compact,
      exec_rdRow_of_lt hcfg h.compact hidx, exec_rdCol_of_lt hcfg h.compact hidx⟩
  · exact fun hcfg hidx => ⟨exec_rdRow_of_le hcfg hidx, exec_rdCol_of_le hcfg hidx⟩
  · intro hcfg
    simp only [List.forall_mem_cons, List.not_mem_nil, false_implies, implies_true, and_true]
    exact ⟨State.requireCfg_of_invalid hcfg _, State.requireCfg_of_invalid hcfg _,
      State.requireCfg_of_invalid hcfg _⟩

/-- Settles O40: in the common form of the strategies, the three commands pass their checks one
after the other, and only their responses stand between them and CALC.s. -/
theorem calcIsInitUpdateFinal : Obligations.CalcIsInitUpdateFinal := by
  refine ⟨fun _ => ⟨rfl, rfl, rfl, rfl, rfl⟩, fun k s bytes xt => ⟨fun hcfg hxt => ?_,
    exec_calc_of_unconfigured bytes, exec_calc_of_otherWidth bytes⟩⟩
  refine ⟨_, _, _, exec_accInit_of_valid hcfg, exec_upd_of_valid bytes hcfg rfl hxt,
    exec_rdFinal_of_valid hcfg rfl, ?_, _, rfl⟩
  rw [exec_calc_of_valid bytes hcfg hxt, ← State.answerFinal_respond_afterBytes_respond]
  rfl

/-- Settles O26: under the invariant the container of `ACTUAL_INIT` is the value loaded. -/
theorem accInitLoadsAdjustedInit : Obligations.AccInitLoadsAdjustedInit := by
  refine ⟨fun _ => rfl, fun s => ⟨fun h hcfg => ?_, fun hcfg => State.requireCfg_of_invalid hcfg _⟩⟩
  rw [exec_accInit_of_valid hcfg, State.freshAcc, State.loadAcc, s.toPort_initVal (h.cfg hcfg)]
  rfl

end Sys2Proof.Proofs
end

