-- ==== Sys2Proof/Proofs/Violations.lean ====
section
/-!
PROOFS. What a command does, said once (`60_exceptions.md` R172, R179): it raises the first violation
that applies, or it has its effect and answers status 0. Each check stands before whatever follows it,
so a chain of checks raises the first that fails.
-/

namespace Sys2Proof.Machine

/-! ### A command's conclusion, and the checks in front of it -/

/-- How a command ends: with the violation that applies, or in the state `t` when none does. -/
def State.conclude (s : State) (v : Option Violation) (t : State) : Result :=
  match v with
  | none => .next t
  | some v => s.raise v

section
variable (s : State) {t : State} {k : Result} {v : Option Violation}

theorem State.requireCfg_conclude (h : k = s.conclude v t) :
    s.requireCfg k = s.conclude (if !s.cfgValid then some .notConfigured else v) t := by
  rw [h, State.requireCfg]
  cases s.cfgValid <;> rfl

theorem State.requireAcc_conclude (h : k = s.conclude v t) :
    s.requireAcc k = s.conclude (if !s.accValid then some .accNotLoaded else v) t := by
  rw [h, State.requireAcc]
  cases s.accValid <;> rfl

theorem State.requireFits_conclude (n : Nat) (a : Port) (h : k = s.conclude v t) :
    s.requireFits n a k =
      s.conclude (if decide (2 ^ n ≤ a.toNat) then some .operandRange else v) t := by
  obtain ⟨hlt, hpass⟩ | ⟨hle, hstop⟩ := s.requireFits_cases n a k
  · rw [hpass, h, decide_eq_false (Nat.not_le.2 hlt)]
    rfl
  · rw [hstop, decide_eq_true hle]
    rfl

theorem State.requireNibble_conclude (idx : Byte) (h : k = s.conclude v t) :
    s.requireNibble idx k =
      s.conclude (if decide (15 < idx.toNat) then some .operandRange else v) t := by
  obtain ⟨hlt, hpass⟩ | ⟨hle, hstop⟩ := s.requireNibble_cases idx k
  · rw [hpass, h, decide_eq_false (by omega)]
    rfl
  · rw [hstop, decide_eq_true hle]
    rfl

theorem State.requireXt_conclude (xt : ExtTable) (h : k = s.conclude v t) :
    s.requireXt xt k =
      s.conclude (if decide (xt.wc ≠ s.cfg.wc) then some .extTableWidth else v) t := by
  obtain ⟨heq, hpass⟩ | ⟨hne, hstop⟩ := s.requireXt_cases xt k
  · rw [hpass, h, decide_eq_false (not_not.2 heq)]
    rfl
  · rw [hstop, decide_eq_true hne]
    rfl

end

/-! ### The effect of each command -/

/-- The state a command leaves when no violation applies, its response included: its arm of `exec`
without the checks (tied to `exec` by `exec_eq_conclude`). -/
def effect (i : Instr) (s : State) : State :=
  match i with
  | .revB a => s.respond (toPort (rev (ofPort 8 a)))
  | .revH a => s.respond (toPort (rev (ofPort 16 a)))
  | .revW a => s.respond (toPort (rev (ofPort 32 a)))
  | .revD a => s.respond (rev a)
  | .cfgSet poly init xorout f => (s.configure (resolve poly init xorout f)).respond 0
  | .genT256 => s.genDense.respond 0
  | .genT16 => s.genCompact.respond 0
  | .accInit => s.freshAcc.respond 0
  | .accLoad a => (s.loadAcc (ofPort s.w a)).respond 0
  | .updBit bytes => (s.bodyBit bytes).respond 0
  | .updT256 bytes => (s.bodyT256 bytes).respond 0
  | .updT16 bytes => (s.bodyT16 bytes).respond 0
  | .updX256 bytes xt => (s.bodyX256 bytes xt).respond 0
  | .updX16 bytes xt => (s.bodyX16 bytes xt).respond 0
  | .rdInterim => s.respond (toPort s.crcVal)
  | .rdResidue => s.respond (toPort s.residueVal)
  | .rdFinal => s.respond (toPort s.finalVal)
  | .rdT256 idx => s.withDense.respond (toPort (s.withDense.readDense idx))
  | .rdRow idx => s.withCompact.respond (toPort (s.withCompact.readRow (idx.extractLsb' 0 4)))
  | .rdCol idx => s.withCompact.respond (toPort (s.withCompact.readCol (idx.extractLsb' 0 4)))
  | .calcBit bytes => (s.freshAcc.bodyBit bytes).answerFinal
  | .calcT256 bytes => (s.freshAcc.bodyT256 bytes).answerFinal
  | .calcT16 bytes => (s.freshAcc.bodyT16 bytes).answerFinal
  | .calcX256 bytes xt => (s.freshAcc.bodyX256 bytes xt).answerFinal
  | .calcX16 bytes xt => (s.freshAcc.bodyX16 bytes xt).answerFinal
  | .resc => s.respond (toPort
      (residueConst s.cfg.refIn s.cfg.refOut s.cfg.refReg s.polyVal s.xoroutVal))

theorem effect_resp (i : Instr) (s : State) : ∃ result, (effect i s).resp = some ⟨0, result⟩ := by
  cases i <;> exact ⟨_, rfl⟩

/-- No effect reads `FAULT` or writes it (R33, R180). -/
theorem effect_setFault (i : Instr) (s : State) :
    effect i { s with fault := true } = { effect i s with fault := true } := by
  cases i <;> rfl

theorem firstViolation_setFault (i : Instr) (s : State) :
    firstViolation i { s with fault := true } = firstViolation i s := rfl

/-! ### What a command does -/

/-- CFG.SET has three range checks, which raise the one violation of its rule. -/
theorem exec_cfgSet_eq_conclude (poly init xorout : Port) (f : BitVec 6) (s : State) :
    exec (.cfgSet poly init xorout f) s =
      s.conclude (if operandTooWide (.cfgSet poly init xorout f) s then some .operandRange else none)
        (effect (.cfgSet poly init xorout f) s) := by
  cases hwide : operandTooWide (.cfgSet poly init xorout f) s
  · exact exec_cfgSet_of_fits hwide
  · simp only [operandTooWide, Bool.or_eq_true, decide_eq_true_eq, or_assoc] at hwide
    exact exec_cfgSet_of_tooWide s hwide

/-- The checks of each command are those its rules name, in the order of R179, and its effect comes
after them all. -/
theorem exec_eq_conclude (i : Instr) (s : State) :
    exec i s = s.conclude (firstViolation i s) (effect i s) := by
  cases i with
  | revD a => rfl
  | revB a | revH a | revW a => exact s.requireFits_conclude _ a rfl
  | cfgSet poly init xorout f => exact exec_cfgSet_eq_conclude poly init xorout f s
  | genT256 | genT16 | accInit | resc | rdT256 _ | calcBit _ | calcT256 _ | calcT16 _ =>
    exact s.requireCfg_conclude rfl
  | accLoad a =>
    simp only [firstViolation, operandTooWide, ← width_eq_mul]
    exact s.requireCfg_conclude (s.requireFits_conclude _ a rfl)
  | rdRow idx | rdCol idx => exact s.requireCfg_conclude (s.requireNibble_conclude idx rfl)
  | rdInterim | rdResidue | rdFinal | updBit _ | updT256 _ | updT16 _ =>
    exact s.requireCfg_conclude (s.requireAcc_conclude rfl)
  | updX256 _ xt | updX16 _ xt =>
    exact s.requireCfg_conclude (s.requireAcc_conclude (s.requireXt_conclude xt rfl))
  | calcX256 _ xt | calcX16 _ xt => exact s.requireCfg_conclude (s.requireXt_conclude xt rfl)

theorem exec_of_firstViolation_none {i : Instr} {s : State} (h : firstViolation i s = none) :
    exec i s = .next (effect i s) := by
  rw [exec_eq_conclude, h, State.conclude]

theorem exec_of_firstViolation_some {i : Instr} {s : State} {v : Violation}
    (h : firstViolation i s = some v) : exec i s = .next (s.violate v) := by
  rw [exec_eq_conclude, h, State.conclude, State.raise]

end Sys2Proof.Machine
end

