-- ==== Sys2Proof/Proofs/Exceptions.lean ====
section
/-!
PROOFS. The statements of `60_exceptions.md`: violations are precise, and which one is reported.
-/

namespace Sys2Proof.Proofs

open Sys2Proof.Machine

/-- R172: a command answers its first violation and writes `FAULT` and the response alone, or it
answers status 0. -/
theorem exec_precise (i : Instr) (s : State) :
    ∃ (t : State) (status : BitVec 3) (result : Port),
      exec i s = .next t ∧ t.resp = some ⟨status, result⟩ ∧
      (status ≠ 0 → t = { s with fault := true, resp := some ⟨status, 0⟩ }) := by
  cases h : firstViolation i s with
  | none =>
    obtain ⟨result, hresp⟩ := effect_resp i s
    exact ⟨effect i s, 0, result, exec_of_firstViolation_none h, hresp, fun hne => absurd rfl hne⟩
  | some v => exact ⟨s.violate v, statusCode v, 0, exec_of_firstViolation_some h, rfl, fun _ => rfl⟩

/-- With `FAULT` set a command does what it does with `FAULT` as it was: neither its checks nor its
effect read the flag. -/
theorem exec_setFault (i : Instr) (s : State) :
    ∃ t : State, exec i s = .next t ∧
      exec i { s with fault := true } = .next { t with fault := true } := by
  have hsame := firstViolation_setFault i s
  cases h : firstViolation i s with
  | none =>
    refine ⟨effect i s, exec_of_firstViolation_none h, ?_⟩
    rw [exec_of_firstViolation_none (hsame.trans h), effect_setFault]
  | some v =>
    exact ⟨s.violate v, exec_of_firstViolation_some h,
      exec_of_firstViolation_some (hsame.trans h)⟩

/-- Settles O47: a command concludes with its first violation, which writes only `FAULT` and the
response, or with its effect and status 0; and neither depends on `FAULT`. -/
theorem violationsArePrecise : Obligations.ViolationsArePrecise :=
  fun i s => ⟨exec_precise i s, fun _ => exec_setFault i s⟩

/-- Settles O48: every command is its chain of checks, in the order of R179, before its effect, and
the codes are those of R173. -/
theorem firstViolationIsReported : Obligations.FirstViolationIsReported := by
  intro i s
  cases h : firstViolation i s with
  | none =>
    obtain ⟨result, hresp⟩ := effect_resp i s
    exact ⟨effect i s, result, exec_of_firstViolation_none h, hresp⟩
  | some v =>
    refine ⟨s.violate v, 0, exec_of_firstViolation_some h, ?_⟩
    cases v <;> rfl

end Sys2Proof.Proofs
end

