-- ==== Sys2Proof/Proofs/Effects.lean ====
section
/-!
PROOFS. What the effect of a command writes, element by element (`10_state.md` sections 2 to 6), and
what a command and a step can do, said once: a command raises a violation or has its effect, and a
step does nothing, applies the reset event, or serves one command.
-/

namespace Sys2Proof.Machine

/-! ### What an effect writes -/

section
variable (i : Instr) (s : State)

@[simp] theorem effect_fault : (effect i s).fault = s.fault := by
  cases i <;> rfl

@[simp] theorem effect_pending : (effect i s).pending = s.pending := by
  cases i <;> rfl

/-- `CFG_VALID` is set by CFG.SET and else stands (R25). -/
theorem effect_cfgValid : (effect i s).cfgValid = (writesConfiguration i || s.cfgValid) := by
  cases i <;> rfl

/-- `ACC_VALID` is set by ACC.* and CALC.*, cleared by CFG.SET, and else stands (R28). -/
theorem effect_accValid :
    (effect i s).accValid = (setsAccValid i || (!writesConfiguration i && s.accValid)) := by
  cases i <;> rfl

end

theorem effect_accValid_iff (i : Instr) (s : State) :
    (effect i s).accValid = true ↔
      setsAccValid i = true ∨ writesConfiguration i = false ∧ s.accValid = true := by
  simp [effect_accValid]

section
variable {i : Instr} (s : State)

theorem effect_cfg_of_not_writes (h : writesConfiguration i = false) :
    (effect i s).cfg = s.cfg := by
  cases i
  case cfgSet => cases h
  all_goals rfl

theorem effect_cfg_wf_of_writes (h : writesConfiguration i = true) : (effect i s).cfg.Wf := by
  cases i
  case cfgSet poly init xorout f => exact resolve_wf poly init xorout f
  all_goals cases h

theorem effect_crc_of_not_writes (h : writesAccumulator i = false) :
    (effect i s).crc = s.crc := by
  cases i
  case accInit | accLoad | updBit | updT256 | updT16 | updX256 | updX16 | calcBit | calcT256 |
    calcT16 | calcX256 | calcX16 => cases h
  all_goals rfl

/-- What is written to `CRC` is a `w`-bit value (R26). -/
theorem fits_effect_crc_of_writes (h : writesAccumulator i = true) :
    fits (effect i s).w (effect i s).crc = true := by
  cases i
  case accInit | accLoad | updBit | updT256 | updT16 | updX256 | updX16 | calcBit | calcT256 |
    calcT16 | calcX256 | calcX16 => exact fits_toPort _
  all_goals cases h

end

theorem State.withDense_dense_cases (s : State) :
    s.withDense.dense = s.dense ∨ s.withDense.dense = s.denseTable := by
  rw [State.withDense_dense]
  exact ite_eq_or_eq _ _ _

theorem State.withCompact_compact_cases (s : State) :
    s.withCompact.compact = s.compact ∨ s.withCompact.compact = s.compactTable := by
  rw [State.withCompact_compact]
  exact ite_eq_or_eq _ _ _

/-- The dense store stands, or is written as a whole by a command that generates it (R32). -/
theorem effect_dense_cases (i : Instr) (s : State) :
    (effect i s).dense = s.dense ∨
      usesDense i = true ∧ (effect i s).dense = s.denseTable := by
  cases i with
  | genT256 => exact .inr ⟨rfl, rfl⟩
  | updT256 | calcT256 | rdT256 => exact s.withDense_dense_cases.imp_right fun h => ⟨rfl, h⟩
  | _ => exact .inl rfl

/-- The compact store stands, or is written as a whole by a command that generates it (R32). -/
theorem effect_compact_cases (i : Instr) (s : State) :
    (effect i s).compact = s.compact ∨
      usesCompact i = true ∧ (effect i s).compact = s.compactTable := by
  cases i with
  | genT16 => exact .inr ⟨rfl, rfl⟩
  | updT16 | calcT16 | rdRow | rdCol =>
    exact s.withCompact_compact_cases.imp_right fun h => ⟨rfl, h⟩
  | _ => exact .inl rfl

theorem effect_dense_of_not_uses {i : Instr} (s : State) (h : usesDense i = false) :
    (effect i s).dense = s.dense :=
  (effect_dense_cases i s).resolve_right fun hwrites => nomatch h.symm.trans hwrites.1

theorem effect_compact_of_not_uses {i : Instr} (s : State) (h : usesCompact i = false) :
    (effect i s).compact = s.compact :=
  (effect_compact_cases i s).resolve_right fun hwrites => nomatch h.symm.trans hwrites.1

theorem toNat_toPort_lt {w : Nat} (v : BitVec w) : (toPort v).toNat < 2 ^ w :=
  (fits_iff _ _).1 (fits_toPort v)

/-- A command without violation answers status 0 and a result of the width of what it returns
(`30_encoding.md` R63). -/
theorem effect_resp_lt (i : Instr) (s : State) :
    ∃ v : Port, (effect i s).resp = some ⟨0, v⟩ ∧ v.toNat < 2 ^ resultWidth i s := by
  cases i with
  | revD a => exact ⟨_, rfl, (rev a).isLt⟩
  | cfgSet | genT256 | genT16 | accInit | accLoad | updBit | updT256 | updT16 | updX256 | updX16 =>
    exact ⟨0, rfl, Nat.one_pos⟩
  | _ => exact ⟨_, rfl, toNat_toPort_lt _⟩

/-! ### What a command and a step do -/

theorem exec_cases (i : Instr) (s : State) :
    (∃ v, firstViolation i s = some v ∧ exec i s = .next (s.violate v)) ∨
    (firstViolation i s = none ∧ exec i s = .next (effect i s)) := by
  cases h : firstViolation i s with
  | none => exact .inr ⟨rfl, exec_of_firstViolation_none h⟩
  | some v => exact .inl ⟨v, rfl, exec_of_firstViolation_some h⟩

/-- The host's next event taken from the interface. -/
def State.take (s : State) (rest : List HostEvent) : State := { s with pending := rest }

section
variable (s : State) (rest : List HostEvent)

@[simp] theorem State.take_cfgValid : (s.take rest).cfgValid = s.cfgValid := rfl
@[simp] theorem State.take_accValid : (s.take rest).accValid = s.accValid := rfl
@[simp] theorem State.take_dense : (s.take rest).dense = s.dense := rfl
@[simp] theorem State.take_compact : (s.take rest).compact = s.compact := rfl

end

theorem step_of_pending_command {s : State} {r : Request} {rest : List HostEvent}
    (hp : s.pending = .command r :: rest) : step s = serve r (s.take rest) := by
  simp [step, advance, fetch, hp, State.take]

theorem step_of_nothing_pending {s : State} (hp : s.pending = []) : step s = .next s := by
  simp [step, advance, fetch, hp]

theorem step_of_pending_reset {s : State} {rest : List HostEvent}
    (hp : s.pending = .reset :: rest) : step s = .next (afterReset rest) := by
  simp [step, advance, fetch, hp]

theorem step_of_decode {s : State} {r : Request} {rest : List HostEvent} {i : Instr}
    (hp : s.pending = .command r :: rest) (hdec : decode r = .ok i) :
    step s = exec i (s.take rest) := by
  rw [step_of_pending_command hp, serve, hdec]

/-- A step does nothing, applies the reset event, or takes one command, which is a violation or has
its effect. -/
theorem step_cases (s : State) :
    (s.pending = [] ∧ step s = .next s) ∨
    (∃ rest, s.pending = .reset :: rest ∧ step s = .next (afterReset rest)) ∨
    (∃ r rest v, s.pending = .command r :: rest ∧ step s = .next ((s.take rest).violate v)) ∨
    (∃ r rest i, s.pending = .command r :: rest ∧ decode r = .ok i ∧
      firstViolation i (s.take rest) = none ∧ step s = .next (effect i (s.take rest))) := by
  obtain ⟨hp, hstep⟩ | ⟨rest, hp, hstep⟩ | ⟨r, rest, hp, hstep⟩ := advance_cases s
  · exact .inl ⟨hp, hstep⟩
  · exact .inr (.inl ⟨rest, hp, hstep⟩)
  · obtain ⟨i, hdec, hserve⟩ | ⟨_, _, hserve⟩ := serve_cases r (s.take rest)
    · obtain ⟨v, _, hexec⟩ | ⟨hnone, hexec⟩ := exec_cases i (s.take rest)
      · exact .inr (.inr (.inl ⟨r, rest, v, hp, hstep.trans (hserve.trans hexec)⟩))
      · exact .inr (.inr (.inr
          ⟨r, rest, i, hp, hdec, hnone, hstep.trans (hserve.trans hexec)⟩))
    · exact .inr (.inr (.inl ⟨r, rest, _, hp, hstep.trans hserve⟩))

/-! ### When no violation applies -/

theorem firstViolation_eq_none_iff (i : Instr) (s : State) :
    firstViolation i s = none ↔
      (needsConfiguration i = true → s.cfgValid = true) ∧ operandTooWide i s = false ∧
      (needsAccumulator i = true → s.accValid = true) ∧ tableOfOtherWidth i s = false := by
  rw [firstViolation]
  split_ifs <;> simp_all

theorem cfgValid_of_firstViolation_none {i : Instr} {s : State} (h : firstViolation i s = none)
    (hi : needsConfiguration i = true) : s.cfgValid = true := by
  obtain ⟨hcfg, _⟩ := (firstViolation_eq_none_iff i s).1 h
  exact hcfg hi

theorem accValid_of_firstViolation_none {i : Instr} {s : State} (h : firstViolation i s = none)
    (hi : needsAccumulator i = true) : s.accValid = true := by
  obtain ⟨_, _, hacc, _⟩ := (firstViolation_eq_none_iff i s).1 h
  exact hacc hi

theorem needsConfiguration_eq_false {i : Instr} {s : State} (h : firstViolation i s = none)
    (hcfg : s.cfgValid = false) : needsConfiguration i = false :=
  Bool.eq_false_of_not_eq_true fun hi =>
    nomatch hcfg.symm.trans (cfgValid_of_firstViolation_none h hi)

theorem needsAccumulator_eq_false {i : Instr} {s : State} (h : firstViolation i s = none)
    (hacc : s.accValid = false) : needsAccumulator i = false :=
  Bool.eq_false_of_not_eq_true fun hi =>
    nomatch hacc.symm.trans (accValid_of_firstViolation_none h hi)

theorem firstViolation_of_unconfigured {i : Instr} {s : State} (hi : needsConfiguration i = true)
    (hcfg : s.cfgValid = false) : firstViolation i s = some .notConfigured := by
  simp [firstViolation, hi, hcfg]

end Sys2Proof.Machine
end

