-- ==== Sys2Proof/Proofs/CommandWords.lean ====
section
/-!
PROOFS. The command words and the reserved words (`30_encoding.md` R61, R64, R68): the encoder's
words are exactly those that are not on the list of R68, and the decoder reads each of them.
-/

namespace Sys2Proof.Machine

/-- The encoder fills the slots its command's row lists and no others (log entry 13). -/
theorem encode_eq_listedSlots (i : Instr) :
    encode i = ⟨(encode i).cmd, listedSlots i (encode i).slots⟩ := by
  cases i <;> rfl

theorem decode_encode (i : Instr) : decode (encode i) = .ok i :=
  decode_of_encode (encode_eq_listedSlots i)

theorem reservedWord_encode (i : Instr) : reservedWord (encode i).cmd = false := by
  cases i <;> (change reservedWord (commandWord _ _) = false; decide)

theorem reservedWord_of_decode {r : Request} {i : Instr} (h : decode r = .ok i) :
    reservedWord r.cmd = false := by
  rw [← encode_cmd_of_decode h]
  exact reservedWord_encode i

theorem decode_of_reservedWord {r : Request} (h : reservedWord r.cmd = true) :
    ∃ e, decode r = .error e := by
  cases hdec : decode r with
  | error e => exact ⟨e, rfl⟩
  | ok i => cases h.symm.trans (reservedWord_of_decode hdec)

/-- Each of the 256 words off the list of R68 is a command; the slots do not matter, so they are
empty here. -/
theorem decode_zeroSlots_of_not_reservedWord :
    ∀ cmd : Byte, reservedWord cmd = false → (decode ⟨cmd, Slots.zero⟩).isOk = true := by
  decide

theorem exists_decode_of_not_reservedWord {r : Request} (h : reservedWord r.cmd = false) :
    ∃ i, decode r = .ok i := by
  have hok := decode_zeroSlots_of_not_reservedWord r.cmd h
  cases hdec : decode ⟨r.cmd, Slots.zero⟩ with
  | error e => rw [hdec] at hok; cases hok
  | ok i => exact exists_decode_of_cmd_eq (r := ⟨r.cmd, Slots.zero⟩) rfl hdec

theorem reservedWord_of_ge {n : Nat} (hle : 128 ≤ n) (hlt : n < 256) :
    reservedWord (BitVec.ofNat 8 n) = true := by
  have hdiv : n / 2 ^ 7 % 2 = 1 := by omega
  have hz : (BitVec.ofNat 8 n).getLsbD 7 = true := by
    rw [BitVec.getLsbD_ofNat, Nat.testBit_eq_decide_div_mod_eq, hdiv]
    rfl
  simp only [reservedWord, hz, Bool.true_or]

/-- Of the words with `z` = 0 all but the 26 commands are reserved, and those with `z` = 1 all are. -/
theorem length_filter_reservedWord :
    ((List.range 256).filter fun n => reservedWord (BitVec.ofNat 8 n)).length = 230 := by
  have hsplit : List.range 256 = List.range' 0 128 ++ List.range' 128 128 := by
    rw [List.range_eq_range']
    exact (List.range'_append (s := 0) (m := 128) (n := 128) (step := 1)).symm
  have hlow : ((List.range' 0 128).filter fun n => reservedWord (BitVec.ofNat 8 n)).length =
      102 := by decide
  have hhigh : (List.range' 128 128).filter (fun n => reservedWord (BitVec.ofNat 8 n)) =
      List.range' 128 128 := by
    refine List.filter_eq_self.2 fun n hn => ?_
    obtain ⟨hle, hlt⟩ := List.mem_range'_1.1 hn
    exact reservedWord_of_ge hle hlt
  rw [hsplit, List.filter_append, List.length_append, hlow, hhigh, List.length_range']

theorem step_of_reservedWord {s : State} {r : Request} {rest : List HostEvent}
    (hp : s.pending = .command r :: rest) (hres : reservedWord r.cmd = true) :
    step s = .next ((s.take rest).violate .illegalCommand) := by
  obtain ⟨e, hdec⟩ := decode_of_reservedWord hres
  rw [step_of_pending_command hp, serve, hdec, State.raise]

end Sys2Proof.Machine

namespace Sys2Proof.Proofs

open Sys2Proof.Machine

/-- Settles O9: an encoding has the word and the listed slots of its command, which is what decodes
to it. -/
theorem decodeAndEncodeAgree : Obligations.DecodeAndEncodeAgree :=
  ⟨decode_encode, fun _ _ => encode_of_decode⟩

/-- Settles O11: the decoder's code column at eight words. -/
theorem someWordsDecode : Obligations.SomeWordsDecode :=
  fun _ => ⟨rfl, rfl, rfl, rfl, rfl, rfl, rfl, rfl⟩

/-- Settles O8: no encoding has a word of the list, and every word off the list decodes. -/
theorem reservedWordsAreIllegalCommands : Obligations.ReservedWordsAreIllegalCommands :=
  ⟨length_filter_reservedWord, fun _ _ _ => step_of_reservedWord,
    fun _ => exists_decode_of_not_reservedWord⟩

end Sys2Proof.Proofs
end

