-- ==== Sys2Proof/Proofs/Invariant.lean ====
section
/-!
PROOFS. The machine's invariant (`10_state.md` R22, R23, R26, R28, R30, R31, `60_exceptions.md`
R172, R173) holds after reset and is kept by a violation, by the effect of every command, and so by
every step.
-/

namespace Sys2Proof.Machine

theorem afterReset_inv (rest : List HostEvent) : State.Inv (afterReset rest) where
  cfg := nofun
  accConfigured := nofun
  acc := nofun
  dense := DenseStore.reset_wf
  compact := CompactStore.reset_wf
  resp := rfl

section
variable {s : State} (h : State.Inv s)
include h

/-- The invariant does not speak of what the host does next. -/
theorem State.Inv.take (rest : List HostEvent) : State.Inv (s.take rest) :=
  ⟨h.cfg, h.accConfigured, h.acc, h.dense, h.compact, h.resp⟩

theorem State.Inv.violate (v : Violation) : State.Inv (s.violate v) :=
  ⟨h.cfg, h.accConfigured, h.acc, h.dense, h.compact, s.violate_responseWf v⟩

/-! ### The effect of a command -/

theorem State.Inv.effect_cfg (i : Instr) (hvalid : (effect i s).cfgValid = true) :
    (effect i s).cfg.Wf := by
  cases hw : writesConfiguration i with
  | true => exact effect_cfg_wf_of_writes s hw
  | false =>
    rw [effect_cfgValid, hw, Bool.false_or] at hvalid
    rw [effect_cfg_of_not_writes s hw]
    exact h.cfg hvalid

end

theorem needsConfiguration_of_setsAccValid {i : Instr} (h : setsAccValid i = true) :
    needsConfiguration i = true := by
  revert h
  cases i <;> simp [setsAccValid, needsConfiguration]

theorem writesAccumulator_of_setsAccValid {i : Instr} (h : setsAccValid i = true) :
    writesAccumulator i = true := by
  revert h
  cases i <;> simp [setsAccValid, writesAccumulator]

section
variable {i : Instr} {s : State} (h : State.Inv s)
include h

/-- A command that loads an accumulator has passed the check of `CFG_VALID`, and one that leaves it
loaded does not take the configuration away (R28). -/
theorem State.Inv.effect_accConfigured (hnone : firstViolation i s = none)
    (hacc : (effect i s).accValid = true) : (effect i s).cfgValid = true := by
  have hs : s.cfgValid = true := by
    obtain hsets | ⟨_, hacc⟩ := (effect_accValid_iff i s).1 hacc
    · exact cfgValid_of_firstViolation_none hnone (needsConfiguration_of_setsAccValid hsets)
    · exact h.accConfigured hacc
  rw [effect_cfgValid, hs, Bool.or_true]

theorem State.Inv.effect_acc (i : Instr) (hacc : (effect i s).accValid = true) :
    fits (effect i s).w (effect i s).crc = true := by
  cases hw : writesAccumulator i with
  | true => exact fits_effect_crc_of_writes s hw
  | false =>
    obtain hsets | ⟨hcfg, hacc⟩ := (effect_accValid_iff i s).1 hacc
    · cases hw.symm.trans (writesAccumulator_of_setsAccValid hsets)
    · rw [effect_crc_of_not_writes s hw, State.w, effect_cfg_of_not_writes s hcfg]
      exact h.acc hacc

theorem State.Inv.effect_dense (i : Instr) : (effect i s).dense.Wf := by
  obtain heq | ⟨_, heq⟩ := effect_dense_cases i s <;> rw [heq]
  · exact h.dense
  · exact s.denseTable_wf

theorem State.Inv.effect_compact (i : Instr) : (effect i s).compact.Wf := by
  obtain heq | ⟨_, heq⟩ := effect_compact_cases i s <;> rw [heq]
  · exact h.compact
  · exact s.compactTable_wf

theorem State.Inv.effect (hnone : firstViolation i s = none) : State.Inv (effect i s) where
  cfg := h.effect_cfg i
  accConfigured := h.effect_accConfigured hnone
  acc := h.effect_acc i
  dense := h.effect_dense i
  compact := h.effect_compact i
  resp := by
    obtain ⟨v, hresp⟩ := effect_resp i s
    rw [hresp]
    rfl

end

end Sys2Proof.Machine

namespace Sys2Proof.Proofs

open Sys2Proof.Machine

/-- Settles O4: after reset every clause is guarded by a valid bit that is 0, or speaks of a response
that has not been given. -/
theorem resetMeetsInvariant : Obligations.ResetMeetsInvariant := afterReset_inv []

/-- Settles O5: each of the four things a step can do keeps the invariant. -/
theorem stepKeepsInvariant : Obligations.StepKeepsInvariant := by
  intro s t h hstep
  obtain ⟨_, heq⟩ | ⟨rest, _, heq⟩ | ⟨_, rest, v, _, heq⟩ | ⟨_, rest, i, _, _, hnone, heq⟩ :=
    step_cases s <;> cases hstep.symm.trans heq
  · exact h
  · exact afterReset_inv rest
  · exact (h.take rest).violate v
  · exact (h.take rest).effect hnone

end Sys2Proof.Proofs
end

