-- ==== Sys2Proof/Proofs/Guards.lean ====
section
/-!
PROOFS. No command reads an element whose valid bit is 0 (`70_reset_and_hazards.md` R191). From one
to the other of two states that differ at most in such elements, the configuration, `CRC`, the dense
and the compact store can be changed one after the other; so it is enough to change one element whose
valid bit is 0 and to see that the command leaves it alone or overwrites it without reading it.
-/

namespace Sys2Proof.Machine

/-! ### States that differ in guarded elements -/

theorem State.SameGuarded.refl (s : State) : State.SameGuarded s s :=
  ⟨rfl, fun _ => rfl, rfl, fun _ => rfl, rfl, fun _ => rfl, rfl, fun _ => rfl, rfl, rfl, rfl⟩

theorem State.SameGuarded.trans {s t u : State} (h : State.SameGuarded s t)
    (h' : State.SameGuarded t u) : State.SameGuarded s u where
  cfgValid := h.cfgValid.trans h'.cfgValid
  cfg hv := (h.cfg hv).trans (h'.cfg (h.cfgValid ▸ hv))
  accValid := h.accValid.trans h'.accValid
  crc hv := (h.crc hv).trans (h'.crc (h.accValid ▸ hv))
  denseValid := h.denseValid.trans h'.denseValid
  dense hv := (h.dense hv).trans (h'.dense (h.denseValid ▸ hv))
  compactValid := h.compactValid.trans h'.compactValid
  compact hv := (h.compact hv).trans (h'.compact (h.compactValid ▸ hv))
  fault := h.fault.trans h'.fault
  pending := h.pending.trans h'.pending
  resp := h.resp.trans h'.resp

section
variable {s t : State} (h : State.SameGuarded s t)
include h

theorem State.SameGuarded.take (rest : List HostEvent) :
    State.SameGuarded (s.take rest) (t.take rest) :=
  { h with pending := rfl }

theorem State.SameGuarded.violate (v : Violation) :
    State.SameGuarded (s.violate v) (t.violate v) :=
  { h with fault := rfl, resp := rfl }

/-- The four elements are all that the two states can differ in. -/
theorem State.SameGuarded.eq_update :
    { s with cfg := t.cfg, crc := t.crc, dense := t.dense, compact := t.compact } = t := by
  obtain ⟨hcfgValid, _, haccValid, _, _, _, _, _, hfault, hpending, hresp⟩ := h
  cases t
  cases hcfgValid; cases haccValid; cases hfault; cases hpending; cases hresp
  rfl

end

/-! ### One element changed while its valid bit is 0 -/

section
variable {i : Instr} {s : State}

theorem effect_setCfg (hi : needsConfiguration i = false) (c : CfgRegs) :
    effect i { s with cfg := c } =
      { effect i s with cfg := if writesConfiguration i then (effect i s).cfg else c } := by
  cases i
  case revB | revH | revW | revD | cfgSet => rfl
  all_goals cases hi

theorem effect_setCrc (hi : needsAccumulator i = false) (v : Port) :
    effect i { s with crc := v } =
      { effect i s with crc := if writesAccumulator i then (effect i s).crc else v } := by
  cases i
  case updBit | updT256 | updT16 | updX256 | updX16 | rdInterim | rdResidue | rdFinal => cases hi
  all_goals rfl

theorem effect_setDense (hi : usesDense i = false) (d : DenseStore) :
    effect i { s with dense := d } = { effect i s with dense := d } := by
  cases i
  case genT256 | updT256 | calcT256 | rdT256 => cases hi
  all_goals rfl

theorem effect_setCompact (hi : usesCompact i = false) (c : CompactStore) :
    effect i { s with compact := c } = { effect i s with compact := c } := by
  cases i
  case genT16 | updT16 | calcT16 | rdRow | rdCol => cases hi
  all_goals rfl

theorem State.withDense_withDense (s : State) : s.withDense.withDense = s.withDense :=
  State.withDense_of_current s.withDense_current

theorem State.withCompact_withCompact (s : State) : s.withCompact.withCompact = s.withCompact :=
  State.withCompact_of_current s.withCompact_current

/-- A command that reads the dense store makes it current first (`42_table_generator.md` R99). -/
theorem effect_withDense (hi : usesDense i = true) : effect i s.withDense = effect i s := by
  cases i
  case genT256 => rfl
  case updT256 bytes =>
    exact congrArg
      (fun u : State => (u.runBytes (stepTab u.cfg.refReg u.readDense) bytes).respond 0)
      s.withDense_withDense
  case calcT256 bytes =>
    exact congrArg
      (fun u : State => (u.runBytes (stepTab u.cfg.refReg u.readDense) bytes).answerFinal)
      s.freshAcc.withDense_withDense
  case rdT256 idx =>
    exact congrArg (fun u : State => u.respond (toPort (u.readDense idx))) s.withDense_withDense
  all_goals cases hi

/-- A command that reads the compact store makes it current first (`42_table_generator.md` R99). -/
theorem effect_withCompact (hi : usesCompact i = true) : effect i s.withCompact = effect i s := by
  cases i
  case genT16 => rfl
  case updT16 bytes =>
    exact congrArg (fun u : State =>
        (u.runBytes (stepTab u.cfg.refReg (compactEntry u.readRow u.readCol)) bytes).respond 0)
      s.withCompact_withCompact
  case calcT16 bytes =>
    exact congrArg (fun u : State =>
        (u.runBytes (stepTab u.cfg.refReg (compactEntry u.readRow u.readCol)) bytes).answerFinal)
      s.freshAcc.withCompact_withCompact
  case rdRow idx =>
    exact congrArg (fun u : State => u.respond (toPort (u.readRow (idx.extractLsb' 0 4))))
      s.withCompact_withCompact
  case rdCol idx =>
    exact congrArg (fun u : State => u.respond (toPort (u.readCol (idx.extractLsb' 0 4))))
      s.withCompact_withCompact
  all_goals cases hi

theorem State.withDense_setDense (hs : s.dense.valid = false) {d : DenseStore}
    (hd : d.valid = false) : State.withDense { s with dense := d } = s.withDense := by
  simp [State.withDense, State.denseCurrent, State.denseTable, State.key, State.polyVal, hs, hd]

theorem State.withCompact_setCompact (hs : s.compact.valid = false) {c : CompactStore}
    (hc : c.valid = false) : State.withCompact { s with compact := c } = s.withCompact := by
  simp [State.withCompact, State.compactCurrent, State.compactTable, State.key, State.polyVal, hs,
    hc]

end

/-! ### Each element by itself -/

section
variable {i : Instr} {s : State}

theorem effect_setCfg_sameGuarded (hnone : firstViolation i s = none) {c : CfgRegs}
    (h : s.cfgValid = true → s.cfg = c) :
    State.SameGuarded (effect i s) (effect i { s with cfg := c }) := by
  obtain hv | hv := Bool.eq_false_or_eq_true s.cfgValid
  · cases h hv; exact .refl _
  · rw [effect_setCfg (needsConfiguration_eq_false hnone hv) c]
    refine { State.SameGuarded.refl (effect i s) with cfg := fun hvalid => ?_ }
    rw [effect_cfgValid, hv, Bool.or_false] at hvalid
    simp [hvalid]

theorem effect_setCrc_sameGuarded (hnone : firstViolation i s = none) {v : Port}
    (h : s.accValid = true → s.crc = v) :
    State.SameGuarded (effect i s) (effect i { s with crc := v }) := by
  obtain hv | hv := Bool.eq_false_or_eq_true s.accValid
  · cases h hv; exact .refl _
  · rw [effect_setCrc (needsAccumulator_eq_false hnone hv) v]
    refine { State.SameGuarded.refl (effect i s) with crc := fun hvalid => ?_ }
    obtain hsets | ⟨_, hacc⟩ := (effect_accValid_iff i s).1 hvalid
    · simp [writesAccumulator_of_setsAccValid hsets]
    · cases hv.symm.trans hacc

theorem effect_setDense_sameGuarded (i : Instr) {d : DenseStore} (hd : s.dense.valid = d.valid)
    (h : s.dense.valid = true → s.dense = d) :
    State.SameGuarded (effect i s) (effect i { s with dense := d }) := by
  obtain hv | hv := Bool.eq_false_or_eq_true s.dense.valid
  · cases h hv; exact .refl _
  · cases hi : usesDense i with
    | true =>
      have heq : effect i { s with dense := d } = effect i s := by
        rw [← effect_withDense hi, State.withDense_setDense hv (hd.symm.trans hv),
          effect_withDense hi]
      rw [heq]
      exact .refl _
    | false =>
      have hdense := effect_dense_of_not_uses s hi
      rw [effect_setDense hi d]
      exact { State.SameGuarded.refl (effect i s) with
        denseValid := by rw [hdense, hd]
        dense := fun hvalid => by rw [hdense, hv] at hvalid; cases hvalid }

theorem effect_setCompact_sameGuarded (i : Instr) {c : CompactStore}
    (hc : s.compact.valid = c.valid) (h : s.compact.valid = true → s.compact = c) :
    State.SameGuarded (effect i s) (effect i { s with compact := c }) := by
  obtain hv | hv := Bool.eq_false_or_eq_true s.compact.valid
  · cases h hv; exact .refl _
  · cases hi : usesCompact i with
    | true =>
      have heq : effect i { s with compact := c } = effect i s := by
        rw [← effect_withCompact hi, State.withCompact_setCompact hv (hc.symm.trans hv),
          effect_withCompact hi]
      rw [heq]
      exact .refl _
    | false =>
      have hcompact := effect_compact_of_not_uses s hi
      rw [effect_setCompact hi c]
      exact { State.SameGuarded.refl (effect i s) with
        compactValid := by rw [hcompact, hc]
        compact := fun hvalid => by rw [hcompact, hv] at hvalid; cases hvalid }

/-- The checks read the configuration only after the check of `CFG_VALID` (`60_exceptions.md`
R179). -/
theorem firstViolation_setCfg (i : Instr) {c : CfgRegs} (h : s.cfgValid = true → s.cfg = c) :
    firstViolation i { s with cfg := c } = firstViolation i s := by
  obtain hv | hv := Bool.eq_false_or_eq_true s.cfgValid
  · cases h hv; rfl
  · cases i
    case revB | revH | revW | revD | cfgSet => rfl
    all_goals
      rw [firstViolation_of_unconfigured (s := s) rfl hv]
      exact firstViolation_of_unconfigured rfl hv

end

/-! ### A command and a step -/

section
variable {s t : State} (h : State.SameGuarded s t)
include h

/-- No check reads `CRC` or a table store. -/
theorem State.SameGuarded.firstViolation_eq (i : Instr) :
    firstViolation i t = firstViolation i s := by
  rw [← h.eq_update, ← firstViolation_setCfg i h.cfg]
  rfl

theorem State.SameGuarded.effect {i : Instr} (hnone : firstViolation i s = none) :
    State.SameGuarded (effect i s) (effect i t) := by
  have hcfg := effect_setCfg_sameGuarded hnone h.cfg
  have hcrc := effect_setCrc_sameGuarded (s := { s with cfg := t.cfg })
    ((firstViolation_setCfg i h.cfg).trans hnone) h.crc
  have hdense := effect_setDense_sameGuarded (s := { s with cfg := t.cfg, crc := t.crc }) i
    h.denseValid h.dense
  have hcompact := effect_setCompact_sameGuarded
    (s := { s with cfg := t.cfg, crc := t.crc, dense := t.dense }) i h.compactValid h.compact
  rw [h.eq_update] at hcompact
  exact hcfg.trans (hcrc.trans (hdense.trans hcompact))

theorem State.SameGuarded.exec (i : Instr) :
    ∃ s' t' : State, exec i s = .next s' ∧ exec i t = .next t' ∧ State.SameGuarded s' t' := by
  have hsame := h.firstViolation_eq i
  obtain ⟨v, hv, hexec⟩ | ⟨hnone, hexec⟩ := exec_cases i s
  · exact ⟨_, _, hexec, exec_of_firstViolation_some (hsame.trans hv), h.violate v⟩
  · exact ⟨_, _, hexec, exec_of_firstViolation_none (hsame.trans hnone), h.effect hnone⟩

theorem State.SameGuarded.serve (r : Request) :
    ∃ s' t' : State, serve r s = .next s' ∧ serve r t = .next t' ∧ State.SameGuarded s' t' := by
  unfold Machine.serve
  cases decode r with
  | ok i => exact h.exec i
  | error e => exact ⟨_, _, rfl, rfl, h.violate .illegalCommand⟩

theorem State.SameGuarded.step :
    ∃ s' t' : State, step s = .next s' ∧ step t = .next t' ∧ State.SameGuarded s' t' := by
  match hp : s.pending, h.pending with
  | [], hp' => exact ⟨s, t, step_of_nothing_pending hp, step_of_nothing_pending hp'.symm, h⟩
  | .reset :: rest, hp' =>
    exact ⟨_, _, step_of_pending_reset hp, step_of_pending_reset hp'.symm, .refl _⟩
  | .command r :: rest, hp' =>
    rw [step_of_pending_command hp, step_of_pending_command hp'.symm]
    exact (h.take rest).serve r

end

/-! ### Runs -/

theorem run_succ_of_step {M : Host.Core} {s s' : M.State} (h : M.step s = .next s') (n : Nat) :
    M.run (n + 1) s = M.run n s' := by
  rw [Host.Core.run, h]

theorem State.SameGuarded.run {s t : State} (h : State.SameGuarded s t) (n : Nat) :
    ∃ s' t' : State, Host.Core.run core n s = .next s' ∧ Host.Core.run core n t = .next t' ∧
      State.SameGuarded s' t' := by
  induction n generalizing s t with
  | zero => exact ⟨s, t, rfl, rfl, h⟩
  | succ n ih =>
    obtain ⟨s', t', hs, ht, h'⟩ := h.step
    rw [run_succ_of_step (M := core) hs, run_succ_of_step (M := core) ht]
    exact ih h'

end Sys2Proof.Machine
end

