-- ==== Sys2Proof/Proofs/ResetAndHazards.lean ====
section
/-!
PROOFS. The statements of `70_reset_and_hazards.md`: the reset event, the step, and the guard rule.
-/

namespace Sys2Proof.Proofs

open Sys2Proof.Machine

/-- Settles O3: a changed element whose valid bit is 0 is left alone or overwritten unread, one
element after the other. -/
theorem guardedElementsAreUnobservable : Obligations.GuardedElementsAreUnobservable :=
  fun _ _ h => h.step

/-- Settles O2: such a machine differs from the reset one in guarded elements only, and every step
keeps that. -/
theorem resetContentsNeverMatter : Obligations.ResetContentsNeverMatter := by
  refine ⟨⟨rfl, rfl, rfl, rfl, rfl⟩, fun t events n hcfg hacc hdense hcompact hfault hresp => ?_⟩
  have hsame : State.SameGuarded { State.reset with pending := events }
      { t with pending := events } :=
    ⟨hcfg.symm, nofun, hacc.symm, nofun, hdense.symm, nofun, hcompact.symm, nofun, hfault.symm, rfl,
      hresp.symm⟩
  exact hsame.run n

/-- Settles O1: the state after the reset event is made of the events that remain and nothing
else. -/
theorem resetEventStartsAfresh : Obligations.ResetEventStartsAfresh := by
  intro s s' rest hs hs'
  refine ⟨afterReset rest, step_of_pending_reset hs, step_of_pending_reset hs', rfl, rfl, rfl, rfl,
    rfl, rfl, fun i hi => ?_⟩
  exact exec_of_firstViolation_some (firstViolation_of_unconfigured hi rfl)

/-- Settles O6: there is no event to serve. -/
theorem nothingPendingNothingHappens : Obligations.NothingPendingNothingHappens :=
  fun _ => step_of_nothing_pending

/-- Settles O7: the step fetches the command, decodes it and executes it. -/
theorem stepRunsDecodedCommand : Obligations.StepRunsDecodedCommand :=
  fun _ _ _ _ => step_of_decode

end Sys2Proof.Proofs
end

