-- ==== Sys2Proof/Proofs/StateChanges.lean ====
section
/-!
PROOFS. The statements of `10_state.md` and `70_reset_and_hazards.md` on who changes what: the
configuration, the accumulator, the table stores, `FAULT`, the valid bits and the response. Each
goes through the two ends of a command: a violation, which writes `FAULT` and the response alone, and
the effect, whose writes are known element by element.
-/

namespace Sys2Proof.Machine

/-- A command ends in a violation or in its effect; so what holds of both holds of the command. -/
theorem exec_induction {P : State → Prop} (i : Instr) (s : State)
    (hviolate : ∀ v, P (s.violate v)) (heffect : firstViolation i s = none → P (effect i s)) :
    ∃ t : State, exec i s = .next t ∧ P t := by
  obtain ⟨v, _, hexec⟩ | ⟨hnone, hexec⟩ := exec_cases i s
  · exact ⟨_, hexec, hviolate v⟩
  · exact ⟨_, hexec, heffect hnone⟩

theorem needsConfiguration_of_usesDense {i : Instr} (h : usesDense i = true) :
    needsConfiguration i = true := by
  revert h
  cases i <;> simp [usesDense, needsConfiguration]

theorem needsConfiguration_of_usesCompact {i : Instr} (h : usesCompact i = true) :
    needsConfiguration i = true := by
  revert h
  cases i <;> simp [usesCompact, needsConfiguration]

theorem statusCode_ne_zero (v : Violation) : statusCode v ≠ 0 := by
  cases v <;> decide

/-! ### The valid bits under an effect (`70_reset_and_hazards.md` R191) -/

section
variable (i : Instr) (s : State)

theorem effect_cfgValid_of_valid (h : s.cfgValid = true) : (effect i s).cfgValid = true := by
  rw [effect_cfgValid, h, Bool.or_true]

theorem effect_dense_valid_of_valid (h : s.dense.valid = true) :
    (effect i s).dense.valid = true := by
  obtain heq | ⟨_, heq⟩ := effect_dense_cases i s <;> rw [heq]
  · exact h
  · exact s.denseTable_valid

theorem effect_compact_valid_of_valid (h : s.compact.valid = true) :
    (effect i s).compact.valid = true := by
  obtain heq | ⟨_, heq⟩ := effect_compact_cases i s <;> rw [heq]
  · exact h
  · exact s.compactTable_valid

end

section
variable {i : Instr} {s : State}

theorem writesConfiguration_of_cfgValid_ne (h : (effect i s).cfgValid ≠ s.cfgValid) :
    writesConfiguration i = true := by
  by_contra hi
  exact h (by rw [effect_cfgValid, Bool.eq_false_of_not_eq_true hi, Bool.false_or])

theorem usesDense_of_dense_valid_ne (h : (effect i s).dense.valid ≠ s.dense.valid) :
    usesDense i = true := by
  obtain heq | ⟨hi, _⟩ := effect_dense_cases i s
  · exact absurd (congrArg DenseStore.valid heq) h
  · exact hi

theorem usesCompact_of_compact_valid_ne (h : (effect i s).compact.valid ≠ s.compact.valid) :
    usesCompact i = true := by
  obtain heq | ⟨hi, _⟩ := effect_compact_cases i s
  · exact absurd (congrArg CompactStore.valid heq) h
  · exact hi

theorem setsAccValid_of_accValid_set (hs : s.accValid = false)
    (h : (effect i s).accValid = true) : setsAccValid i = true := by
  simpa [effect_accValid, hs] using h

theorem writesConfiguration_of_accValid_cleared (hs : s.accValid = true)
    (h : (effect i s).accValid = false) : writesConfiguration i = true := by
  rw [effect_accValid, hs, Bool.or_eq_false_iff] at h
  simpa using h.2

end

theorem effect_resp_of_writesConfiguration {i : Instr} (s : State)
    (h : writesConfiguration i = true) : (effect i s).resp = some ⟨0, 0⟩ := by
  cases i
  case cfgSet => rfl
  all_goals cases h

end Sys2Proof.Machine

namespace Sys2Proof.Proofs

open Sys2Proof.Machine

/-- Settles O16: no effect but that of CFG.SET writes a configuration register or `CFG_VALID`. -/
theorem onlyCfgSetWritesConfiguration : Obligations.OnlyCfgSetWritesConfiguration := by
  intro i s hi
  refine exec_induction i s (fun _ => ⟨rfl, rfl⟩) fun _ => ⟨effect_cfg_of_not_writes s hi, ?_⟩
  rw [effect_cfgValid, hi, Bool.false_or]

/-- Settles O25: an effect leaves a store or writes the generated table, after the check of the
configuration. -/
theorem tableStoresChangeOnlyAsAWhole : Obligations.TableStoresChangeOnlyAsAWhole := by
  intro i s
  refine exec_induction i s (fun _ => ⟨.inl rfl, .inl rfl⟩) fun hnone => ⟨?_, ?_⟩
  · refine (effect_dense_cases i s).imp_right fun ⟨hi, heq⟩ => ?_
    rw [heq]
    exact ⟨hi, cfgValid_of_firstViolation_none hnone (needsConfiguration_of_usesDense hi), rfl,
      rfl, s.denseTable_entry⟩
  · refine (effect_compact_cases i s).imp_right fun ⟨hi, heq⟩ => ?_
    rw [heq]
    exact ⟨hi, cfgValid_of_firstViolation_none hnone (needsConfiguration_of_usesCompact hi), rfl,
      rfl, s.compactTable_entry⟩

/-- Settles O28: a violation writes neither element, and the effect of a command is known in
both. -/
theorem whoWritesTheAccumulator : Obligations.WhoWritesTheAccumulator := by
  intro i s
  refine exec_induction i s (fun v => ?_) fun _ => ⟨effect_crc_of_not_writes s,
    setsAccValid_of_accValid_set, writesConfiguration_of_accValid_cleared⟩
  simp +contextual

/-- R33: `FAULT` after a command. -/
theorem exec_fault (i : Instr) (s : State) :
    ∃ t : State, exec i s = .next t ∧
      ∃ r : Response, t.resp = some r ∧ t.fault = (s.fault || decide (r.status ≠ 0)) := by
  refine exec_induction i s (fun v => ⟨_, rfl, ?_⟩) fun _ => ?_
  · rw [State.violate_fault, decide_eq_true (statusCode_ne_zero v), Bool.or_true]
  · obtain ⟨_, hresp⟩ := effect_resp i s
    exact ⟨_, hresp, by rw [effect_fault, decide_eq_false (not_not.2 rfl), Bool.or_false]⟩

/-- Settles O49: a violation sets `FAULT`, no effect writes it, and of the other steps only the
reset event does. -/
theorem faultIsSticky : Obligations.FaultIsSticky := by
  refine ⟨fun i s => ?_, fun s t hstep hs ht => ?_⟩
  · obtain ⟨t, hexec, r, hresp, hfault⟩ := exec_fault i s
    exact ⟨t, r, hexec, hresp, hfault⟩
  · obtain ⟨_, heq⟩ | ⟨rest, hp, _⟩ | ⟨_, rest, v, _, heq⟩ | ⟨_, rest, i, _, _, _, heq⟩ :=
      step_cases s
    · cases hstep.symm.trans heq
      cases hs.symm.trans ht
    · exact ⟨rest, hp⟩
    · cases hstep.symm.trans heq
      cases ht
    · cases hstep.symm.trans heq
      rw [effect_fault] at ht
      cases hs.symm.trans ht

/-- Settles O50: the encoding decodes to the command, and a violation's result is 0. -/
theorem everyCommandAnswersOnce : Obligations.EveryCommandAnswersOnce := by
  intro i s rest
  have hexec : ∃ t : State, exec i (s.take rest) = .next t ∧ ∃ r : Response, t.resp = some r ∧
      t.pending = rest ∧ r.result.toNat < 2 ^ resultWidth i s := by
    refine exec_induction i (s.take rest) (fun v => ⟨_, rfl, rfl, Nat.two_pow_pos _⟩) fun _ => ?_
    obtain ⟨_, hresp, hlt⟩ := effect_resp_lt i (s.take rest)
    exact ⟨_, hresp, effect_pending i _, hlt⟩
  obtain ⟨t, hexec, r, h⟩ := hexec
  exact ⟨t, r, (step_of_decode rfl (decode_encode i)).trans hexec, h⟩

/-- R191: which commands change a valid bit, by their effects. -/
theorem effect_validBits (i : Instr) (s : State) :
    ((effect i s).cfgValid ≠ s.cfgValid →
      writesConfiguration i = true ∧ (effect i s).resp = some ⟨0, 0⟩) ∧
    ((effect i s).dense.valid ≠ s.dense.valid → usesDense i = true) ∧
    ((effect i s).compact.valid ≠ s.compact.valid → usesCompact i = true) ∧
    (s.accValid = false → (effect i s).accValid = true → setsAccValid i = true) ∧
    (s.accValid = true → (effect i s).accValid = false →
      writesConfiguration i = true ∧ (effect i s).resp = some ⟨0, 0⟩) := by
  have hanswer := effect_resp_of_writesConfiguration (i := i) s
  refine ⟨fun h => ?_, usesDense_of_dense_valid_ne, usesCompact_of_compact_valid_ne,
    setsAccValid_of_accValid_set, fun hs h => ?_⟩
  · have hi := writesConfiguration_of_cfgValid_ne h
    exact ⟨hi, hanswer hi⟩
  · have hi := writesConfiguration_of_accValid_cleared hs h
    exact ⟨hi, hanswer hi⟩

/-- Settles O51: a step with no event and a violation write no valid bit, and the effect of a
command is known in each. -/
theorem validBitsChangeOnlySo : Obligations.ValidBitsChangeOnlySo := by
  intro s t hstep hreset
  obtain ⟨hp, heq⟩ | ⟨rest, hp, _⟩ | ⟨r, rest, v, hp, heq⟩ | ⟨r, rest, i, hp, hdec, _, heq⟩ :=
    step_cases s
  · cases hstep.symm.trans heq
    refine ⟨id, id, id, fun r rest i hp' => ?_⟩
    cases hp.symm.trans hp'
  · exact absurd hp (hreset rest)
  · cases hstep.symm.trans heq
    refine ⟨id, id, id, fun _ _ _ _ _ => ?_⟩
    simp +contextual
  · cases hstep.symm.trans heq
    refine ⟨effect_cfgValid_of_valid i (s.take rest), effect_dense_valid_of_valid i (s.take rest),
      effect_compact_valid_of_valid i (s.take rest), fun r' rest' i' hp' hdec' => ?_⟩
    cases hp.symm.trans hp'
    cases hdec.symm.trans hdec'
    exact effect_validBits i (s.take rest)

end Sys2Proof.Proofs
end

