-- ==== Sys2Proof/Proofs/SaveAndRestore.lean ====
section
/-!
PROOFS. A saved accumulator restored around another configuration (`70_reset_and_hazards.md` R194):
the values read off a state that meets the invariant bring exactly its configuration and register
back.
-/

namespace Sys2Proof.Machine

/-- CFG.SET of a consistent configuration's own values, under flags that give its own fields, brings
exactly that configuration. -/
theorem resolve_of_wf {c : CfgRegs} (h : c.Wf) {g : BitVec 6} (hwidth : flagsWidth g = c.wc)
    (hin : flagsRefIn g = c.refIn) (hout : flagsRefOut g = c.refOut)
    (hreg : flagsRefReg g = c.refReg) : resolve c.poly c.init c.xorout g = c := by
  obtain ⟨hpoly, hinit, hxorout, hactualPoly, hactualInit⟩ := h
  rw [resolve, hwidth, hin, hout, hreg, toPort_ofPort hpoly, toPort_ofPort hinit,
    toPort_ofPort hxorout, ← hactualPoly, ← hactualInit]

theorem operandTooWide_cfgSet_of_wf {c : CfgRegs} (h : c.Wf) {g : BitVec 6}
    (hwidth : flagsWidth g = c.wc) (s : State) :
    operandTooWide (.cfgSet c.poly c.init c.xorout g) s = false := by
  obtain ⟨hpoly, hinit, hxorout, _, _⟩ := h
  rw [← hwidth, fits_iff, width_flagsWidth] at hpoly hinit hxorout
  exact operandTooWide_cfgSet_eq_false s hpoly hinit hxorout

/-- The accumulator loaded with its own value under its own configuration. -/
theorem State.loadAcc_configure_self {s : State} (hcfg : s.cfgValid = true)
    (hacc : s.accValid = true) (hcrc : fits s.w s.crc = true) :
    (s.configure s.cfg).loadAcc (ofPort s.w s.crc) = s := by
  calc (s.configure s.cfg).loadAcc (ofPort s.w s.crc)
    _ = { s with crc := toPort (ofPort s.w s.crc), cfgValid := true, accValid := true } := rfl
    _ = { s with cfgValid := true, accValid := true } := by rw [toPort_ofPort hcrc]
    _ = s := by
      cases s
      cases hcfg
      cases hacc
      rfl

end Sys2Proof.Machine

namespace Sys2Proof.Proofs

open Sys2Proof.Machine

/-- Settles O41: the second CFG.SET installs the configuration read off the state, and ACC.LOAD the
register read off it. -/
theorem saveAndRestoreAroundConfiguration : Obligations.SaveAndRestoreAroundConfiguration := by
  intro s poly init xorout f g h hcfg hacc hfits hwidth hin hout hreg
  have hread := exec_rdInterim_of_valid hcfg hacc
  rw [s.toPort_crcVal h hacc] at hread
  have hset : ∀ t : State, exec (.cfgSet s.cfg.poly s.cfg.init s.cfg.xorout g) t =
      .next ((t.configure s.cfg).respond 0) := fun t => by
    rw [exec_cfgSet_of_fits (operandTooWide_cfgSet_of_wf (h.cfg hcfg) hwidth t),
      resolve_of_wf (h.cfg hcfg) hwidth hin hout hreg]
  have hcrc : s.crc.toNat < 2 ^ s.w := (fits_iff _ _).1 (h.acc hacc)
  have hself := congrArg (State.respond · 0) (State.loadAcc_configure_self hcfg hacc (h.acc hacc))
  exact ⟨_, _, _, _, s.crc, hread, rfl, exec_cfgSet_of_fits hfits, rfl, hset _,
    exec_accLoad_of_lt rfl hcrc, hself⟩

end Sys2Proof.Proofs
end

