-- ==== Sys2Proof/Proofs/ResidueRelations.lean ====
section
/-!
PROOFS. RESC from the accumulator when `REF_IN = REF_OUT` (`44_residue.md` R143), and the register
after a codeword when they differ (`44_residue.md` R139, R140).
-/

namespace Sys2Proof.Machine

/-! ### RESC from the accumulator (R143) -/

theorem State.adaptIn_zero (s : State) : s.adaptIn 0 = 0 := by
  unfold State.adaptIn
  cases s.cfg.refIn != s.cfg.refReg
  · rfl
  · exact rev_zero 8

/-- `w / 8` zero bytes, whatever the adapter, are `w` rounds (R136). -/
theorem State.regAfter_zeros (s : State) :
    s.regAfter (List.replicate (s.w / 8) 0) = rounds s.cfg.refReg s.crcVal s.polyVal s.w := by
  have hadapt : (List.replicate (s.w / 8) (0 : Byte)).map s.adaptIn =
      List.replicate (s.w / 8) 0 := by
    rw [List.map_replicate, s.adaptIn_zero]
  calc s.regAfter (List.replicate (s.w / 8) 0)
    _ = ((List.replicate (s.w / 8) (0 : Byte)).map s.adaptIn).foldl
          (stepBit s.cfg.refReg s.polyVal) s.crcVal := by rw [List.foldl_map]; rfl
    _ = rounds s.cfg.refReg s.crcVal s.polyVal s.w := by
      rw [hadapt, foldl_stepBit_zeros, mul_width_div_eight]

theorem exec_accLoad_toPort {s : State} (hcfg : s.cfgValid = true) (v : BitVec s.w) :
    exec (.accLoad (toPort v)) s = .next ((s.loadAcc v).respond 0) := by
  rw [exec_accLoad_of_lt hcfg (toNat_toPort_lt v), ofPort_width_toPort]

/-- `XOROUT` reflected to the convention of the register, the value RESC starts from (R135). -/
def State.reflectedXorout (s : State) : BitVec s.w :=
  reflectIf (s.cfg.refReg != s.cfg.refOut) s.xoroutVal

theorem State.toPort_reflectedXorout {s : State} (h : s.cfg.Wf) :
    if s.cfg.refReg = s.cfg.refOut then toPort s.reflectedXorout = s.cfg.xorout
    else reversedAt s.w s.cfg.xorout (toPort s.reflectedXorout) := by
  rw [State.reflectedXorout, reflectIf_bne]
  split
  · exact State.toPort_xoroutVal h
  · exact reversedAt_toPort_rev (width_le_sixtyFour _) s.cfg.xorout

/-- With `REF_IN = REF_OUT` the residue of zero bytes from there is what RESC answers. -/
theorem State.residueVal_zeros_of_matches {k : Strategy} {s : State} {xt : ExtTable}
    (hd : s.dense.Wf) (hc : s.compact.Wf) (hk : k.Matches s xt)
    (hrefl : s.cfg.refIn = s.cfg.refOut) :
    (((s.loadAcc s.reflectedXorout).respond 0).afterBytes k
        (List.replicate (s.w / 8) 0) xt).residueVal =
      residueConst s.cfg.refIn s.cfg.refOut s.cfg.refReg s.polyVal s.xoroutVal := by
  have hload : (s.loadAcc s.reflectedXorout).crcVal = s.reflectedXorout := ofPort_width_toPort _ _
  have hreg := State.crcVal_afterBytes_of_matches (s := (s.loadAcc s.reflectedXorout).respond 0)
    hd hc hk (List.replicate (s.w / 8) 0)
  have hzeros := (s.loadAcc s.reflectedXorout).regAfter_zeros
  rw [hload] at hzeros
  refine (congrArg s.adaptOut (hreg.trans hzeros)).trans ?_
  rw [residueConst, hrefl]
  rfl

/-! ### A codeword under `REF_IN != REF_OUT` (R139, R140) -/

/-- What goes through the last `w` rounds of a codeword under such flags (R139). -/
def State.mixedWord (s : State) (data : List Byte) : BitVec s.w :=
  s.messageReg data ^^^ (s.messageReg data).reverse ^^^
    (if s.cfg.refReg = s.cfg.refIn then s.xoroutVal else s.xoroutVal.reverse)

/-- The reflections of the output adapter and of the input adapter do not cancel: the register goes
into its own codeword reversed. -/
theorem State.messageReg_final_of_ne {s : State} (hne : s.cfg.refIn ≠ s.cfg.refOut)
    (data : List Byte) :
    s.messageReg (data ++ checksumBytes s.w
        (toPort (s.adaptOut (s.messageReg data) ^^^ s.xoroutVal)) s.cfg.refIn) =
      rounds s.cfg.refReg (s.mixedWord data) s.polyVal s.w := by
  have hreverse : reflectIf (s.cfg.refIn != s.cfg.refReg) (s.adaptOut (s.messageReg data)) =
      (s.messageReg data).reverse := by
    rw [State.adaptOut, bne_comm (a := s.cfg.refIn), bne_comm (b := s.cfg.refOut),
      reflectIf_bne_trans, reflectIf_bne, if_neg hne.symm]
  rw [State.messageReg_codeword, reflectIf_xor, hreverse, bne_comm, reflectIf_bne,
    State.mixedWord, BitVec.xor_assoc]

/-- In a configured state the codeword of any data can be fed, and the state after it is known. -/
theorem State.feedsCodeword_of_matches {k : Strategy} {s : State} {xt : ExtTable}
    (hd : s.dense.Wf) (hc : s.compact.Wf) (hcfg : s.cfgValid = true) (hk : k.Matches s xt)
    (data : List Byte) :
    s.FeedsCodeword k data xt (s.freshAcc.afterBytes k data xt).answerFinal
      (((s.freshAcc.respond 0).afterBytes k (data ++ checksumBytes s.w
        (toPort (s.adaptOut (s.messageReg data) ^^^ s.xoroutVal)) s.cfg.refIn) xt).respond 0) :=
  ⟨_, _, exec_calc_of_valid data hcfg hk.width,
    success_congr (State.finalVal_message_of_matches hd hc hk data), exec_accInit_of_valid hcfg,
    exec_upd_of_valid _ hcfg rfl hk.width⟩

/-! ### R140's example -/

theorem respond_resp_inj {s t : State} {u v : Port} (h : (s.respond u).resp = (t.respond v).resp) :
    u = v := by
  simpa using h

/-- The machine under the configuration of R140's example, by CFG.SET from reset. -/
def mixedFlags : State := effect (.cfgSet 0x1021 0xFFFF 0x1234 0x09) State.reset

theorem mixedFlags_inv : State.Inv mixedFlags := (afterReset_inv []).effect (by decide)

theorem mixedWord_mixedFlags_nil : mixedFlags.mixedWord [] = 0x1234#16 := rfl

theorem mixedWord_mixedFlags_zero : mixedFlags.mixedWord [0] = 0xFC43#16 := rfl

/-- The residue of a codeword, the adapter of R140's example reflecting the register. -/
theorem residueVal_mixedFlags (data : List Byte) :
    ((mixedFlags.freshAcc.respond 0).afterBytes .bit (data ++ checksumBytes mixedFlags.w
        (toPort (mixedFlags.adaptOut (mixedFlags.messageReg data) ^^^ mixedFlags.xoroutVal))
        mixedFlags.cfg.refIn) .zero).residueVal =
      rev (rounds false (mixedFlags.mixedWord data) 0x1021#16 16) :=
  (State.residueVal_message_of_matches mixedFlags_inv.dense mixedFlags_inv.compact (k := .bit)
    trivial _).trans (congrArg mixedFlags.adaptOut (State.messageReg_final_of_ne (by decide) data))

theorem rounds_mixedWords_ne :
    rounds false 0x1234#16 0x1021#16 16 ≠ rounds false 0xFC43#16 0x1021#16 16 := by
  simp [rounds, bitRound]

end Sys2Proof.Machine

namespace Sys2Proof.Proofs

open Sys2Proof.Machine

/-- Settles O44: zero bytes are the rounds of RESC, and with `REF_IN = REF_OUT` RD.RESIDUE reflects
as RESC does at its end. -/
theorem rescFromTheAccumulator : Obligations.RescFromTheAccumulator := by
  intro k s xt h hcfg hrefl hk
  have hresidue := State.residueVal_zeros_of_matches h.dense h.compact hk hrefl
  exact ⟨toPort s.reflectedXorout, _, _, _, _, State.toPort_reflectedXorout (h.cfg hcfg),
    exec_accLoad_toPort hcfg _,
    exec_upd_of_valid (s := (s.loadAcc s.reflectedXorout).respond 0) _ hcfg rfl hk.width,
    exec_rdResidue_of_valid hcfg rfl, exec_resc_of_valid hcfg, success_congr hresidue⟩

/-- R140: the codewords of no bytes and of one zero byte leave different residues. -/
theorem codewords_without_common_residue :
    ∃ s : State, exec (.cfgSet 0x1021 0xFFFF 0x1234 0x09) State.reset = .next s ∧
      ∃ (data data' : List Byte) (q m q' m' t t' : State),
        s.FeedsCodeword .bit data .zero q m ∧ s.FeedsCodeword .bit data' .zero q' m' ∧
        exec .rdResidue m = .next t ∧ exec .rdResidue m' = .next t' ∧ t.resp ≠ t'.resp := by
  have hfeeds := State.feedsCodeword_of_matches (k := .bit) (xt := .zero) mixedFlags_inv.dense
    mixedFlags_inv.compact rfl trivial
  refine ⟨mixedFlags, exec_of_firstViolation_none (by decide), [], [0], _, _, _, _, _, _,
    hfeeds [], hfeeds [0], exec_rdResidue_of_valid rfl rfl, exec_rdResidue_of_valid rfl rfl,
    fun hresp => ?_⟩
  have hrev : rev (rounds false (mixedFlags.mixedWord []) 0x1021#16 16) =
      rev (rounds false (mixedFlags.mixedWord [0]) 0x1021#16 16) := by
    rw [← residueVal_mixedFlags, ← residueVal_mixedFlags]
    exact toPort_injective (by decide) (respond_resp_inj hresp)
  rw [mixedWord_mixedFlags_nil, mixedWord_mixedFlags_zero] at hrev
  exact rounds_mixedWords_ne ((rev_involutive 16).injective hrev)

/-- Settles O46: a codeword feeds the register back into itself, reversed; and the codewords of two
short messages evaluate to different residues. -/
theorem codewordUnderMixedFlags : Obligations.CodewordUnderMixedFlags := by
  refine ⟨fun k s data xt h hcfg hne hk => ?_, codewords_without_common_residue⟩
  refine ⟨_, _, State.feedsCodeword_of_matches h.dense h.compact hcfg hk data, ?_⟩
  intro reg
  have hreg : reg = s.messageReg data := State.crcVal_message_of_matches h.dense h.compact hk data
  have hcodeword := (State.crcVal_message_of_matches h.dense h.compact hk _).trans
    (State.messageReg_final_of_ne hne data)
  rw [hreg]
  exact (State.crc_afterBytes s.freshAcc k _ xt).trans (congrArg toPort hcodeword)

end Sys2Proof.Proofs
end
